-- ==== Sys2Proof/Word.lean ====
section
/-! DEFINITION. The word types of the stage: the widths fixed by R7 (00_scope.md). Every value is unsigned (R8). -/

namespace Sys2Proof

/-- An input byte or an output character code: 8 bits (R7). -/
abbrev Byte := BitVec 8

/-- The data field of an input beat: 24 bits (R28, R60). -/
abbrev Lanes := BitVec 24

/-- The length field of an input beat: 2 bits (R28, R60). -/
abbrev Len := BitVec 2

/-- An input beat `W = {in_len, in_data}`: 26 bits (R60). -/
abbrev BeatWord := BitVec 26

/-- An index into the alphabet: 6 bits (R7, R83). -/
abbrev Index := BitVec 6

/-- An output beat, four characters: 32 bits (R61). -/
abbrev OutBeat := BitVec 32

end Sys2Proof
end

