-- ==== Sys2Proof/Syntax.lean ====
section
/-! DEFINITION. The operations of the stage: one constructor per row of the operation map (R63, opcode_table.json). -/

namespace Sys2Proof

/-- An input beat as an operation with its operands (R62, R63). The ignored lanes are kept, so that an operation says
every bit of its beat; they may hold any value (R62, R64). DESIGN CHOICE, safe: log entry 6. -/
inductive Instr where
  /-- ENC3, `len` = 3: bytes `a`, `b`, `c` (R86) -/
  | enc3 (a b c : Byte)
  /-- ENC2, `len` = 2: bytes `a`, `b`; `ignored` is lane `c` (R87) -/
  | enc2 (a b : Byte) (ignored : BitVec 8)
  /-- ENC1, `len` = 1: byte `a`; `ignored` is lanes `b`, `c` (R88) -/
  | enc1 (a : Byte) (ignored : BitVec 16)
  /-- NOP, `len` = 0: `ignored` is lanes `a`, `b`, `c` (R89) -/
  | nop (ignored : BitVec 24)
deriving DecidableEq, Repr

/-- The beat carries no byte: it is a NOP (R89). -/
def Instr.isEmpty : Instr → Bool
  | .enc3 _ _ _ => false
  | .enc2 _ _ _ => false
  | .enc1 _ _ => false
  | .nop _ => true

/-- A short beat: ENC1 or ENC2, whose output holds padding (R90, R124). -/
def Instr.isShort : Instr → Bool
  | .enc3 _ _ _ => false
  | .enc2 _ _ _ => true
  | .enc1 _ _ => true
  | .nop _ => false

end Sys2Proof
end

