-- ==== Sys2Proof/WellFormed.lean ====
section
/-! DEFINITION. What is well formed: every operation (R64); the plain notation of R66; a word of 26 bits (R60); a beat
sequence that keeps the host's framing duty (R118). -/

namespace Sys2Proof

/-- Every operation is well formed: "No input beat is illegal" (R64). The operand widths are in the types. -/
def Instr.wellFormed : Instr → Bool
  | .enc3 _ _ _ => true
  | .enc2 _ _ _ => true
  | .enc1 _ _ => true
  | .nop _ => true

/-- The operation can be written in the plain notation of R66, in which the ignored lanes are 0; any other is written
`BEAT 0x…`. -/
def Instr.isPlain : Instr → Bool
  | .enc3 _ _ _ => true
  | .enc2 _ _ ignored => ignored == 0
  | .enc1 _ ignored => ignored == 0
  | .nop ignored => ignored == 0

/-- The operation with its ignored lanes 0, as the plain notation of R66 writes it. -/
def Instr.plain : Instr → Instr
  | .enc3 a b c => .enc3 a b c
  | .enc2 a b _ => .enc2 a b 0
  | .enc1 a _ => .enc1 a 0
  | .nop _ => .nop 0

/-- The number is a beat word: no bit above bit 25 (R60). -/
def isBeatWord (w : Nat) : Bool := w < 2 ^ 26

/-- Beats that carry bytes keep the framing duty of R118: every one but the last is an ENC3, and none is empty. -/
def framedBeats : List Instr → Bool
  | [] => true
  | [i] => !i.isEmpty
  | i :: j :: rest => !i.isEmpty && !i.isShort && framedBeats (j :: rest)

/-- A beat sequence keeps the framing duty once the NOPs, which may stand anywhere, are taken out (R118, R89). -/
def wellFramed (beats : List Instr) : Bool := framedBeats (beats.filter fun i => !i.isEmpty)

end Sys2Proof
end

