-- ==== Sys2Proof/Decode.lean ====
section
/-! DEFINITION. The decoder and the encoder of input beats (R60, R63, R65). -/

namespace Sys2Proof

/-- The length field, `W[25:24]` (R60). -/
def lenOf (w : BeatWord) : Len := w.extractLsb' 24 2

/-- The data field, `W[23:0]` (R60). -/
def dataOf (w : BeatWord) : Lanes := w.extractLsb' 0 24

/-- The beat word on the ports: `W = {in_len, in_data}` (R60). -/
def beatWord (len : Len) (data : Lanes) : BeatWord := len ++ data

/-- The operation of a beat word: `len` alone selects it (R63). Total, since no beat is illegal (R64, R65). -/
def decode (w : BeatWord) : Instr :=
  if lenOf w = 3 then .enc3 (w.extractLsb' 16 8) (w.extractLsb' 8 8) (w.extractLsb' 0 8)
  else if lenOf w = 2 then .enc2 (w.extractLsb' 16 8) (w.extractLsb' 8 8) (w.extractLsb' 0 8)
  else if lenOf w = 1 then .enc1 (w.extractLsb' 16 8) (w.extractLsb' 0 16)
  else .nop (w.extractLsb' 0 24)

/-- Why a number is no input beat. -/
inductive DecodeReject where
  /-- a bit above bit 25 is set: all beats are 26 bits (R60). Raised by `decodeNumber`; safe, the ports cannot carry
  such a number. -/
  | widerThanABeat
deriving DecidableEq, Repr

/-- Decoding of any number: by its 26 bits, or rejected by name. -/
def decodeNumber (w : Nat) : Except DecodeReject Instr :=
  if isBeatWord w then .ok (decode (BitVec.ofNat 26 w)) else .error .widerThanABeat

/-- The operation the decoder reads from the low `nbits` bits of `w`, numbered as opcode_table.json numbers them: bit 0
is `W[0]` (R60). Beats are not stored anywhere, so no byte order enters. DESIGN CHOICE, safe: log entry 8. -/
def decodeTableWord (nbits w : Nat) : Option Instr :=
  match decodeNumber (w % 2 ^ nbits) with
  | .ok i => some i
  | .error _ => none

/-- The beat word of an operation, from the patterns of R63 with the ignored lanes as the operation holds them. -/
def encode : Instr → BeatWord
  | .enc3 a b c => (0b11#2 ++ a ++ b ++ c : BitVec 26)
  | .enc2 a b ignored => (0b10#2 ++ a ++ b ++ ignored : BitVec 26)
  | .enc1 a ignored => (0b01#2 ++ a ++ ignored : BitVec 26)
  | .nop ignored => (0b00#2 ++ ignored : BitVec 26)

end Sys2Proof
end

