-- ==== Sys2Proof/Machine/Lut.lean ====
section
/-! DEFINITION. The alphabet look-up table and the padding character (R26, R27). -/

namespace Sys2Proof.Machine

/-- Entries 0 to 25 of R26, `A` to `Z`. -/
def lutUpper : List Byte :=
  [0x41, 0x42, 0x43, 0x44, 0x45, 0x46, 0x47, 0x48, 0x49, 0x4A, 0x4B, 0x4C, 0x4D,
   0x4E, 0x4F, 0x50, 0x51, 0x52, 0x53, 0x54, 0x55, 0x56, 0x57, 0x58, 0x59, 0x5A]

/-- Entries 26 to 51 of R26, `a` to `z`. -/
def lutLower : List Byte :=
  [0x61, 0x62, 0x63, 0x64, 0x65, 0x66, 0x67, 0x68, 0x69, 0x6A, 0x6B, 0x6C, 0x6D,
   0x6E, 0x6F, 0x70, 0x71, 0x72, 0x73, 0x74, 0x75, 0x76, 0x77, 0x78, 0x79, 0x7A]

/-- Entries 52 to 63 of R26, `0` to `9`, `+`, `/`. -/
def lutDigits : List Byte :=
  [0x30, 0x31, 0x32, 0x33, 0x34, 0x35, 0x36, 0x37, 0x38, 0x39, 0x2B, 0x2F]

/-- The 64 entries of R26 in index order. -/
def lutTable : List Byte := lutUpper ++ lutLower ++ lutDigits

/-- The table holds 64 entries (R26). -/
theorem lutTable_length : lutTable.length = 64 := rfl

/-- `LUT[i]` (R26): read-only, the same in every cycle (R27). The codes are US-ASCII: log entry 13. -/
def lut (i : Index) : Byte := lutTable[i.toNat]'(lutTable_length ▸ i.isLt)

/-- `PAD`, the code of `=` (R26). -/
def pad : Byte := 0x3D

end Sys2Proof.Machine
end

