-- ==== Sys2Proof/Config.lean ====
section
/-! DEFINITION. The input ports of R28 and the values the host puts on them where no schedule says.
Every parameter of the stage is fixed (R7), so there is no implementation parameter here. -/

namespace Sys2Proof

/-- The values of the stage's input ports in one cycle (R28). `clk` is not among them: a step of the model IS a
rising edge of `clk` (R11). -/
structure Pins where
  /-- `rst`, active high -/
  rst : Bool
  /-- `in_valid` -/
  inValid : Bool
  /-- `in_len` -/
  inLen : Len
  /-- `in_data` -/
  inData : Lanes
  /-- `out_ready` -/
  outReady : Bool
deriving DecidableEq, Repr, Inhabited

/-- The pins of cycle `n` where the host's schedule does not give them: a FREE VALUE, no body ("Input ports are not
state: a model takes their values as the free inputs of each clock step", R28; R126).
DESIGN CHOICE, safe: log entry 2. -/
opaque Config.freePins : Nat → Pins

end Sys2Proof
end

