-- ==== Sys2Proof/Machine/State.lean ====
section
/-! DEFINITION. The state of the stage (R20, R24, R25), the host's side of its ports, the reasons a step can stop, and
the state after reset (R31, R150). -/

namespace Sys2Proof.Machine

/-- The reasons the machine stops with a fault: none. "A model of the stage has no fault outcome of its own" (R131,
R130). DEDUCED, safe: log entry 12. -/
inductive Fault where
deriving DecidableEq, Repr

/-- The reasons a step has no meaning. -/
inductive Refusal where
  /-- Raised by an arm of `exec` whose operation has no meaning yet (none in this model). Safe. -/
  | notModelled (mnemonic : String)
  /-- Raised by every clock edge with `rst` = 0 before the first edge with `rst` = 1: "no rule applies and a model
  should refuse to claim anything" (R138, R152). Safe. DEDUCED: log entry 4. -/
  | beforeFirstReset
deriving DecidableEq, Repr

/-- The stage's registers, and the host's side of the ports. The alphabet is a constant (R27): `Machine.lut`. -/
structure State where
  /-- `out_valid_q` (R24) -/
  outValidQ : Bool
  /-- `out_data_q` (R25) -/
  outDataQ : OutBeat
  /-- whether an edge with `rst` = 1 has happened since power-on (R31, R152) -/
  resetSeen : Bool
  /-- HOST: the pins of the coming cycles, the current one first (R28, R126). The model's own field: log entry 2 -/
  schedule : List Pins
  /-- HOST: the number of this cycle, the index of its free pins (R21). The model's own field: log entry 2 -/
  cycle : Nat
  /-- HOST: the input beats that fired since the last reset edge, first one first (R117). The model's own field: log
  entry 3 -/
  taken : List Instr
  /-- HOST: the output beats delivered since the last reset edge, first one first (R114, R117). The model's own field:
  log entry 3 -/
  received : List OutBeat
  /-- HOST: the output beats delivered before the last reset edge, first one first (R114). The model's own field: log
  entry 3 -/
  earlier : List OutBeat
deriving DecidableEq, Repr

/-- The machine right after a reset edge: `out_valid_q` = 0 (R31, R150). The spec gives `out_data_q` no value there; 0 is
a DESIGN CHOICE, unsafe: log entry 1. The host's fields are empty: log entries 2, 3 and 17. -/
def State.reset : State where
  outValidQ := false
  outDataQ := 0
  resetSeen := true
  schedule := []
  cycle := 0
  taken := []
  received := []
  earlier := []

/-- The sequence of beats the consumer has received: every delivery, in edge order, across reset edges (R114). -/
def State.delivered (s : State) : List OutBeat := s.earlier ++ s.received

end Sys2Proof.Machine
end

