-- ==== Sys2Proof/Machine/Operands.lean ====
section
/-! DEFINITION. The operands of a beat and the datapath `ENCODE_GROUP` (R80 to R85), and the current cycle's pins. -/

namespace Sys2Proof.Machine

/-- Lane `a`, `in_data[23:16]` (R42, R60). -/
def laneA (data : Lanes) : Byte := data.extractLsb' 16 8

/-- Lane `b`, `in_data[15:8]` (R42, R60). -/
def laneB (data : Lanes) : Byte := data.extractLsb' 8 8

/-- Lane `c`, `in_data[7:0]` (R42, R60). -/
def laneC (data : Lanes) : Byte := data.extractLsb' 0 8

/-- Byte `b` is present: `len >= 2` (R81). -/
def bPresent (len : Len) : Bool := decide (2 ≤ len.toNat)

/-- Byte `c` is present: `len == 3` (R81). -/
def cPresent (len : Len) : Bool := decide (len.toNat = 3)

/-- The lane's value, or zero where its byte is absent (R81). -/
def maskLane (present : Bool) (lane : Byte) : Byte := if present then lane else 0

/-- Three bytes placed by zero extension at bits 23:16, 15:8 and 7:0 (R82). -/
def pack (a b c : Byte) : Lanes := (a.setWidth 24 <<< 16) ||| (b.setWidth 24 <<< 8) ||| c.setWidth 24

/-- `tot` of a beat: its present bytes packed, absent ones as zero (R81, R82). -/
def packedValue (len : Len) (data : Lanes) : Lanes :=
  pack (laneA data) (maskLane (bPresent len) (laneB data)) (maskLane (cPresent len) (laneC data))

/-- `idx_k`, the index of slot `k`: `(tot >> (18 - 6k)) & 63` (R83). -/
def slotIndex (k : Fin 4) (tot : Lanes) : Index := ((tot >>> (18 - 6 * k.val)) &&& 63).setWidth 6

/-- A slot's character: the looked-up one where its byte is present, `PAD` otherwise (R85). -/
def padSelect (present : Bool) (ch : Byte) : Byte := if present then ch else pad

/-- Four characters as an output beat, slot 0 in bits 31:24 (R43, R61). -/
def outBeatOf (s0 s1 s2 s3 : Byte) : OutBeat := (s0 ++ s1 ++ s2 ++ s3 : BitVec 32)

/-- `ENCODE_GROUP(len, data)` (R80): all four indices are computed (R94), the unused ones discarded (R85). -/
def encodeGroup (len : Len) (data : Lanes) : OutBeat :=
  let tot := packedValue len data
  outBeatOf (lut (slotIndex 0 tot)) (lut (slotIndex 1 tot))
    (padSelect (bPresent len) (lut (slotIndex 2 tot))) (padSelect (cPresent len) (lut (slotIndex 3 tot)))

/-- The character of slot `k`, bits `[31-8k : 24-8k]` (R25, R43, R61). -/
def slotChar (k : Fin 4) (out : OutBeat) : Byte := out.extractLsb' (24 - 8 * k.val) 8

/-- The input pins of the current cycle: the schedule's first, or free values (R28, R126; log entry 2). -/
def State.pins (s : State) : Pins :=
  match s.schedule with
  | p :: _ => p
  | [] => Config.freePins s.cycle

/-- The operation on the input port this cycle, if one is offered: the beat `{in_len, in_data}` with `in_valid` = 1
(R60, R112). -/
def State.offered (s : State) : Option Instr :=
  if s.pins.inValid then some (decode (beatWord s.pins.inLen s.pins.inData)) else none

end Sys2Proof.Machine
end

