-- ==== Sys2Proof/Machine/Flags.lean ====
section
/-! DEFINITION. The handshake signals (R110 to R112). The stage has no flags; `out_valid_q`, seen as `out_valid`, is its
only status bit (R22).

Before the first reset edge, in a cycle with `rst` = 0, the spec leaves `out_valid` and `in_ready` unspecified (R31, R152).
The model computes all signals of this file by the same equations there too: DESIGN CHOICE, unsafe, log entry 18. -/

namespace Sys2Proof.Machine

/-- `in_ready = !rst && (!out_valid_q || out_ready)` (R110). Before the first reset edge with `rst` = 0 the value is
unspecified (R152) and this one is the model's choice: log entry 18. -/
def State.inReady (s : State) : Bool := !s.pins.rst && (!s.outValidQ || s.pins.outReady)

/-- `out_valid = out_valid_q && !rst` (R111). Before the first reset edge with `rst` = 0 the value is unspecified (R152) and
this one is the model's choice: log entry 18. -/
def State.outValid (s : State) : Bool := s.outValidQ && !s.pins.rst

/-- `out_data = out_data_q`, driven in every cycle (R111). A beat only while `outValid` (R156): see `outBeat`. -/
def State.outData (s : State) : OutBeat := s.outDataQ

/-- The output beat presented this cycle: `out_data` in a cycle with `out_valid` = 1, nothing otherwise (R156). -/
def State.outBeat (s : State) : Option OutBeat := if s.outValid then some s.outData else none

/-- `fire_in` of a cycle in which a beat is offered (`inValid`) or not (R112). -/
def State.firesIn (inValid : Bool) (s : State) : Bool := inValid && s.inReady

/-- `fire_in = in_valid && in_ready` (R112). -/
def State.fireIn (s : State) : Bool := s.firesIn s.pins.inValid

/-- `fire_out = out_valid && out_ready` (R112). -/
def State.fireOut (s : State) : Bool := s.outValid && s.pins.outReady

end Sys2Proof.Machine
end

