-- ==== Sys2Proof/Machine/Ops.lean ====
section
/-! DEFINITION. The clock edge, written once for all operations (R113, R150), and the host's acts on the pins. The stage
has no exception to take and none to return from (R130, R134). -/

namespace Sys2Proof.Machine

/-- What an input beat does to the pipeline register if it fires: the beat, and the value it loads into `out_data_q`
(none for an empty beat). -/
structure Offer where
  beat : Instr
  load : Option OutBeat
deriving DecidableEq, Repr

/-- The host moves on to the next cycle's pins. -/
def State.nextCycle (s : State) : State := { s with schedule := s.schedule.tail, cycle := s.cycle + 1 }

/-- The edge with `rst` = 1: `out_valid_q <- 0`, `out_data_q` not written, no beat taken or delivered (R113, R150). The
records of R117 start again, and the consumer keeps what it has received (R114). -/
def State.resetEdge (s : State) : State :=
  { s.nextCycle with outValidQ := false, resetSeen := true, taken := [], received := [], earlier := s.delivered }

/-- The value the offered beat loads at this edge: it fires and is not empty (R113). -/
def State.loads (offer : Option Offer) (s : State) : Option OutBeat :=
  match offer with
  | some o => if s.firesIn true then o.load else none
  | none => none

/-- The next `out_valid_q` (R113): 1 on a load, else 0 if the waiting beat is taken, else unchanged. -/
def State.nextOutValidQ (offer : Option Offer) (s : State) : Bool :=
  match s.loads offer with
  | some _ => true
  | none => if s.fireOut then false else s.outValidQ

/-- The next `out_data_q` (R113): written on a load only. -/
def State.nextOutDataQ (offer : Option Offer) (s : State) : OutBeat :=
  match s.loads offer with
  | some d => d
  | none => s.outDataQ

/-- The input beats taken since the last reset edge, with this edge's (R112, R117). -/
def State.nextTaken (offer : Option Offer) (s : State) : List Instr :=
  match offer with
  | some o => if s.firesIn true then s.taken ++ [o.beat] else s.taken
  | none => s.taken

/-- The output beats delivered since the last reset edge, with this edge's: `emit(out_data)` exactly where `fire_out` = 1
(R114). -/
def State.nextReceived (s : State) : List OutBeat := if s.fireOut then s.received ++ [s.outData] else s.received

/-- The edge with `rst` = 0 (R113). All values on the right are those before the edge (R9). -/
def State.dataEdge (offer : Option Offer) (s : State) : State :=
  { s.nextCycle with
    outValidQ := s.nextOutValidQ offer
    outDataQ := s.nextOutDataQ offer
    taken := s.nextTaken offer
    received := s.nextReceived }

/-- A rising edge of `clk` with the given beat on the input port, or none (R113). Reset takes precedence (R133). Before
the first reset edge no rule holds (R138, R152). -/
def clockEdge (offer : Option Offer) (s : State) : Host.Outcome State Fault Refusal :=
  if s.pins.rst then .next s.resetEdge
  else if s.resetSeen then .next (s.dataEdge offer)
  else .refused .beforeFirstReset

/-- The edge of a cycle with `in_valid` = 0 (R112, R113). -/
def idleEdge (s : State) : Host.Outcome State Fault Refusal := clockEdge none s

/-- The stage at power-on, with any contents of its registers (R31, R152). -/
def State.powerOn (valid : Bool) (data : OutBeat) : State :=
  { State.reset with outValidQ := valid, outDataQ := data, resetSeen := false }

/-- The pins of a cycle in which the host offers the beat word `w` and holds `out_ready` as given (TAKE is true, STALL
is false: R67). -/
def pinsOffer (w : BeatWord) (outReady : Bool) : Pins where
  rst := false
  inValid := true
  inLen := lenOf w
  inData := dataOf w
  outReady := outReady

/-- The pins of a cycle in which the host offers nothing (R112). -/
def pinsIdle (outReady : Bool) : Pins where
  rst := false
  inValid := false
  inLen := 0
  inData := 0
  outReady := outReady

/-- The pins of a reset cycle (R150). -/
def pinsReset : Pins where
  rst := true
  inValid := false
  inLen := 0
  inData := 0
  outReady := false

/-- The host offers the beat word `w` in the current cycle and takes any waiting output beat, so that `w` fires at the
next edge; a machine still before its first reset edge is taken to be past it. DESIGN CHOICE: log entry 7. -/
def State.placeBeat (s : State) (w : BeatWord) : State :=
  { s with schedule := pinsOffer w true :: s.schedule, resetSeen := true }

end Sys2Proof.Machine
end

