-- ==== Sys2Proof/Machine/Encode.lean ====
section
/-! DEFINITION. The meanings of ENC3, ENC2, ENC1 and NOP (R86 to R89): the clock edge of a cycle in which the beat is
offered with `in_valid` = 1, with `rst` and `out_ready` as the cycle's pins say. Log entry 11. -/

namespace Sys2Proof.Machine

/-- ENC3: `out_data_q <- ENCODE_GROUP(3, in_data)`, `out_valid_q <- 1` (R86). -/
def execEnc3 (a b c : Byte) (s : State) : Host.Outcome State Fault Refusal :=
  clockEdge (some ⟨.enc3 a b c, some (encodeGroup 3 (a ++ b ++ c : BitVec 24))⟩) s

/-- ENC2: `out_data_q <- ENCODE_GROUP(2, in_data)`, `out_valid_q <- 1`, whatever lane `c` holds (R87, R91). -/
def execEnc2 (a b : Byte) (ignored : BitVec 8) (s : State) : Host.Outcome State Fault Refusal :=
  clockEdge (some ⟨.enc2 a b ignored, some (encodeGroup 2 (a ++ b ++ ignored : BitVec 24))⟩) s

/-- ENC1: `out_data_q <- ENCODE_GROUP(1, in_data)`, `out_valid_q <- 1`, whatever lanes `b` and `c` hold (R88, R91). -/
def execEnc1 (a : Byte) (ignored : BitVec 16) (s : State) : Host.Outcome State Fault Refusal :=
  clockEdge (some ⟨.enc1 a ignored, some (encodeGroup 1 (a ++ ignored : BitVec 24))⟩) s

/-- NOP: consumed, no output beat, `out_data_q` not written (R89). -/
def execNop (ignored : BitVec 24) (s : State) : Host.Outcome State Fault Refusal :=
  clockEdge (some ⟨.nop ignored, none⟩) s

end Sys2Proof.Machine
end

