-- ==== Sys2Proof/Machine/Dispatch.lean ====
section
/-! DEFINITION. One arm per operation. -/

namespace Sys2Proof.Machine

def exec (i : Instr) (s : State) : Host.Outcome State Fault Refusal :=
  match i with
  | .enc3 a b c => Sys2Proof.Machine.execEnc3 a b c s
  | .enc2 a b ignored => Sys2Proof.Machine.execEnc2 a b ignored s
  | .enc1 a ignored => Sys2Proof.Machine.execEnc1 a ignored s
  | .nop ignored => Sys2Proof.Machine.execNop ignored s

end Sys2Proof.Machine
end

