-- ==== Sys2Proof/Machine/Step.lean ====
section
/-! DEFINITION. One step: one rising edge of `clk` (R113). -/

namespace Sys2Proof.Machine

/-- One rising edge: the operation on the input port if one is offered, else an edge that offers nothing (R112, R113). -/
def step (s : State) : Host.Outcome State Fault Refusal :=
  match s.offered with
  | some i => exec i s
  | none => idleEdge s

/-- `s` with the beat of the low `nbits` bits of `w` placed so that the next step runs it: log entry 7. -/
def State.withFetchWord (s : State) (nbits w : Nat) : State := s.placeBeat (BitVec.ofNat 26 (w % 2 ^ nbits))

end Sys2Proof.Machine
end

