-- ==== Sys2Proof/Machine/Framing.lean ====
section
/-! DEFINITION. The host's duty around the stage: a byte sequence as input beats (R118), output beats as a string (R119),
and the map from beats to output the stage realises between them (R117). -/

namespace Sys2Proof.Machine

/-- The input beats of a byte sequence: groups of three, the last one short where the length is no multiple of 3, and no
beat for no byte (R118; the pseudo-operation ENCODE of R67). Absent lanes are 0 (R66). -/
def frame : List Byte → List Instr
  | [] => []
  | [a] => [.enc1 a 0]
  | [a, b] => [.enc2 a b 0]
  | a :: b :: c :: rest => .enc3 a b c :: frame rest

/-- The four characters of an output beat, slot 0 first (R119). -/
def chars (out : OutBeat) : List Byte := [slotChar 0 out, slotChar 1 out, slotChar 2 out, slotChar 3 out]

/-- The string of a sequence of output beats, in delivery order (R119). -/
def joinBeats (outs : List OutBeat) : List Byte := outs.flatMap chars

/-- The output beat of an input beat: `ENCODE_GROUP` of its ports' values, none for an empty beat (R80, R89). -/
def beatOutput (i : Instr) : Option OutBeat :=
  if i.isEmpty then none else some (encodeGroup (lenOf (encode i)) (dataOf (encode i)))

/-- The map of `ENCODE_GROUP` over the non-empty beats, in order: the stage at transaction level (R117). -/
def streamOutput (beats : List Instr) : List OutBeat := beats.filterMap beatOutput

/-- The string the stage and its host give for a byte sequence (R118, R117, R119). -/
def encodeBytes (bytes : List Byte) : List Byte := joinBeats (streamOutput (frame bytes))

/-- The pins of a host that offers the given beats one a cycle and always takes, and then takes once more (TAKE, R67). -/
def fullRate (beats : List Instr) : List Pins :=
  beats.map (fun i => pinsOffer (encode i) true) ++ [pinsIdle true]

end Sys2Proof.Machine
end

