-- ==== Sys2Proof/Safety.lean ====
section
/-! DEFINITION. The terms claims are made in: runs under given pins, what makes the output side right, and standard Base64
as a function of the byte sequence alone. -/

namespace Sys2Proof

open Sys2Proof.Machine

/-- The machine with the given pins for its next cycles. -/
def driven (pins : List Pins) (s : State) : State := { s with schedule := pins ++ s.schedule }

/-- One edge for each of the given pins. -/
def runPins (pins : List Pins) (s : State) : Host.Outcome State Fault Refusal :=
  core.run pins.length (driven pins s)

/-- The rules of the spec hold: a reset edge has been seen, or this is a reset cycle (R151, R152; P5 of 95_test_vectors.md
shows the port values of a reset cycle at power-on). -/
abbrev RulesHold (s : State) : Prop := s.resetSeen = true ∨ s.pins.rst = true

/-- The values of `out_data` at the `fire_out` edges of the next `n` edges, in edge order (R114). -/
def deliveries : Nat → State → List OutBeat
  | 0, _ => []
  | n + 1, s =>
    match step s with
    | .next t => (if s.fireOut then [s.outData] else []) ++ deliveries n t
    | .fault _ => []
    | .refused _ => []

/-- The output beat still waiting in the pipeline register, if any (R24, R117). -/
def waiting (s : State) : List OutBeat := if s.outValidQ then [s.outDataQ] else []

/-- In order and one to one (R49, R117): the encodings of the non-empty beats taken since the last reset edge are the beats
delivered since then and the one still waiting. Nothing is said before the first reset edge (R152). -/
def StreamOrdered (s : State) : Prop := s.resetSeen = true → streamOutput s.taken = s.received ++ waiting s

/-- The number of padding characters in an output beat (R90). -/
def padCount (out : OutBeat) : Nat := (chars out).count pad

/-- An output beat as R61, R90 and R93 allow it: alphabet characters, with `PAD` in none, the last or the last two slots. -/
def legalBeat (out : OutBeat) : Bool :=
  lutTable.contains (slotChar 0 out) && lutTable.contains (slotChar 1 out) &&
    ((lutTable.contains (slotChar 2 out) && lutTable.contains (slotChar 3 out)) ||
     (lutTable.contains (slotChar 2 out) && slotChar 3 out == pad) ||
     (slotChar 2 out == pad && slotChar 3 out == pad))

/-- Every beat ever delivered is legal, and so is the one waiting once the registers have been reset (R93, R152). -/
def OutputLegal (s : State) : Prop :=
  (∀ out ∈ s.delivered, legalBeat out = true) ∧ (s.resetSeen = true → ∀ out ∈ waiting s, legalBeat out = true)

/-- Two states that differ at most in contents of `out_data_q` that are no beat (R156; 93_implementation_defined.md I2). -/
def SameButStale (s t : State) : Prop :=
  t = { s with outDataQ := t.outDataQ } ∧ (s.outValidQ = true → t.outDataQ = s.outDataQ)

/-- A character of the alphabet by its index, by the closed form of R26. -/
def base64Char (i : Nat) : Byte :=
  if i ≤ 25 then BitVec.ofNat 8 (0x41 + i)
  else if i ≤ 51 then BitVec.ofNat 8 (0x61 + (i - 26))
  else if i ≤ 61 then BitVec.ofNat 8 (0x30 + (i - 52))
  else if i = 62 then 0x2B
  else 0x2F

/-- Standard Base64 with padding, by arithmetic on the bytes' numbers: each group is one number, and its digits to base 64
are the characters; a short last group is filled with zero bits to whole digits and padded with `=` (R2, R12, R120;
90_conflicts.md C4). Written without the stage's datapath, to compare it with. -/
def base64 : List Byte → List Byte
  | [] => []
  | [a] =>
    let n := a.toNat * 16
    [base64Char (n / 64), base64Char (n % 64), 0x3D, 0x3D]
  | [a, b] =>
    let n := (a.toNat * 256 + b.toNat) * 4
    [base64Char (n / 4096), base64Char (n / 64 % 64), base64Char (n % 64), 0x3D]
  | a :: b :: c :: rest =>
    let n := (a.toNat * 256 + b.toNat) * 256 + c.toNat
    base64Char (n / 262144) :: base64Char (n / 4096 % 64) :: base64Char (n / 64 % 64) :: base64Char (n % 64) ::
      base64 rest

end Sys2Proof
end

