-- ==== Sys2Proof/Certificates/Slice0/Obligations.lean ====
section
/-! DEFINITION. The statements for the provers, in the order of the spec's files. Each docstring names the rule it
formalises, or says what is the model's own. -/

open Sys2Proof Sys2Proof.Machine

/-! ### State and the table (10_state.md) -/

/-- R26: 64 distinct entries, equal to the closed form; `PAD` = 0x3D is not among them. -/
def Obligations.LutIsTheStandardAlphabet : Prop :=
  lutTable.length = 64 ∧ lutTable.Nodup ∧ pad = 0x3D ∧ pad ∉ lutTable ∧
  (∀ i : Index, lut i = base64Char i.toNat) ∧
  (∀ i : Index, (lut i).getLsbD 7 = false)

/-- Right after reset the register is empty: `out_valid_q` = 0 (R31), so no beat is presented, taken or delivered yet. The
empty host fields are the model's choice (log entries 2, 3, 17); nothing is said of `out_data_q` (log entry 1). -/
def Obligations.ResetStateIsEmpty : Prop :=
  State.reset.outValidQ = false ∧ State.reset.outBeat = none ∧ waiting State.reset = [] ∧
  State.reset.resetSeen = true ∧ State.reset.taken = [] ∧ State.reset.received = [] ∧ State.reset.delivered = []

/-! ### Encoding (30_encoding.md) -/

/-- R63: the length bits alone select the operation, every word matches exactly one row, and its operands are its
lanes. -/
def Obligations.OperationMapCoversEveryWordOnce : Prop :=
  ∀ w : BeatWord,
    (w &&& 0x3000000 = 0x3000000 ↔ decode w = .enc3 (w.extractLsb' 16 8) (w.extractLsb' 8 8) (w.extractLsb' 0 8)) ∧
    (w &&& 0x3000000 = 0x2000000 ↔ decode w = .enc2 (w.extractLsb' 16 8) (w.extractLsb' 8 8) (w.extractLsb' 0 8)) ∧
    (w &&& 0x3000000 = 0x1000000 ↔ decode w = .enc1 (w.extractLsb' 16 8) (w.extractLsb' 0 16)) ∧
    (w &&& 0x3000000 = 0x0000000 ↔ decode w = .nop (w.extractLsb' 0 24)) ∧
    (w &&& 0x3000000 = 0x3000000 ∨ w &&& 0x3000000 = 0x2000000 ∨ w &&& 0x3000000 = 0x1000000 ∨
      w &&& 0x3000000 = 0x0000000) ∧
    (∀ v : BeatWord, v &&& 0x3000000 = w &&& 0x3000000 →
      ((decode v).isEmpty = (decode w).isEmpty ∧ (decode v).isShort = (decode w).isShort))

/-- Decoding the word of any well-formed operation gives it back, with every operand and every ignored lane (R60, R63).
That the ignored lanes are kept is the model's choice (log entry 6). -/
def Obligations.DecodeOfEncodeIsIdentity : Prop := ∀ i : Instr, i.wellFormed = true → decode (encode i) = i

/-- Encoding the operation of any word gives the word back: no bit of a beat is dropped, and no two words share an
operation (R63, R64; log entry 6). -/
def Obligations.EncodeOfDecodeIsIdentity : Prop := ∀ w : BeatWord, encode (decode w) = w

/-- Words written out bit by bit from the patterns of R63, and the examples of R66. -/
def Obligations.WrittenOutWordsDecode : Prop :=
  decode 0b11010011010110000101101110#26 = .enc3 0x4D 0x61 0x6E ∧
  decode 0b10010011010110000100000000#26 = .enc2 0x4D 0x61 0x00 ∧
  decode 0b10010011010110000111111111#26 = .enc2 0x4D 0x61 0xFF ∧
  decode 0b01010011010000000000000000#26 = .enc1 0x4D 0x0000 ∧
  decode 0b01010011010001001000110100#26 = .enc1 0x4D 0x1234 ∧
  decode 0b00010011010110000101101110#26 = .nop 0x4D616E

/-! ### The datapath (40_group_encode.md) -/

/-- R81, R82: `tot` is the present bytes in their lanes with absent ones as zero; as a number each byte keeps its unsigned
weight, so nothing carries. -/
def Obligations.PackedValueHasTheMaskedLanes : Prop :=
  ∀ (len : Len) (data : Lanes), len ≠ 0 →
    let bm : Byte := if 2 ≤ len.toNat then laneB data else 0
    let cm : Byte := if len.toNat = 3 then laneC data else 0
    packedValue len data = (laneA data ++ bm ++ cm : BitVec 24) ∧
    (packedValue len data).toNat = (laneA data).toNat * 65536 + bm.toNat * 256 + cm.toNat

/-- R83: the four indices by shift and mask are the slices of `tot`, and of the bytes. -/
def Obligations.IndicesAreTheSlices : Prop :=
  (∀ (tot : Lanes) (k : Fin 4), slotIndex k tot = tot.extractLsb' (18 - 6 * k.val) 6 ∧
    (slotIndex k tot).toNat = tot.toNat / 2 ^ (18 - 6 * k.val) % 64) ∧
  (∀ a b c : Byte,
    slotIndex 0 (pack a b c) = a.extractLsb' 2 6 ∧
    slotIndex 1 (pack a b c) = (a.extractLsb' 0 2 ++ b.extractLsb' 4 4 : BitVec 6) ∧
    slotIndex 2 (pack a b c) = (b.extractLsb' 0 4 ++ c.extractLsb' 6 2 : BitVec 6) ∧
    slotIndex 3 (pack a b c) = c.extractLsb' 0 6)

/-- R86 (ENC3), whole: its word; the next state where the beat fires, with the written registers; no padding; the corner
cases; the bijection between data fields and four-character strings over the alphabet. -/
def Obligations.Enc3EncodesThreeBytes : Prop :=
  (∀ (a b c : Byte) (s : State), s.resetSeen = true → s.pins.rst = false → s.inReady = true →
    decode (0b11#2 ++ a ++ b ++ c : BitVec 26) = .enc3 a b c ∧
    ∃ t, exec (.enc3 a b c) s = .next t ∧ t.outValidQ = true ∧
      t.outDataQ = (lut (a.extractLsb' 2 6) ++ lut (a.extractLsb' 0 2 ++ b.extractLsb' 4 4 : BitVec 6) ++
        lut (b.extractLsb' 0 4 ++ c.extractLsb' 6 2 : BitVec 6) ++ lut (c.extractLsb' 0 6) : BitVec 32) ∧
      t.outDataQ = encodeGroup 3 (a ++ b ++ c : BitVec 24) ∧
      ∀ k : Fin 4, slotChar k t.outDataQ ∈ lutTable ∧ slotChar k t.outDataQ ≠ pad) ∧
  (∀ out : OutBeat, (∀ k : Fin 4, slotChar k out ∈ lutTable) → ∃! data : Lanes, encodeGroup 3 data = out) ∧
  encodeGroup 3 0x000000 = 0x41414141 ∧ encodeGroup 3 0xFFFFFF = 0x2F2F2F2F ∧ encodeGroup 3 0x4D616E = 0x54574675

/-- R87 (ENC2), whole: its word, whatever the ignored lane holds; the next state where the beat fires; one padding
character, in slot 3; the 16 characters slot 2 can be; the corner cases. -/
def Obligations.Enc2EncodesTwoBytes : Prop :=
  (∀ (a b : Byte) (ignored : BitVec 8) (s : State),
    s.resetSeen = true → s.pins.rst = false → s.inReady = true →
    decode (0b10#2 ++ a ++ b ++ ignored : BitVec 26) = .enc2 a b ignored ∧
    ∃ t, exec (.enc2 a b ignored) s = .next t ∧ t.outValidQ = true ∧
      t.outDataQ = (lut (a.extractLsb' 2 6) ++ lut (a.extractLsb' 0 2 ++ b.extractLsb' 4 4 : BitVec 6) ++
        lut (b.extractLsb' 0 4 ++ 0b00#2 : BitVec 6) ++ pad : BitVec 32) ∧
      t.outDataQ = encodeGroup 2 (a ++ b ++ ignored : BitVec 24) ∧
      padCount t.outDataQ = 1 ∧ slotChar 3 t.outDataQ = pad ∧
      slotChar 2 t.outDataQ ∈ ([0x41, 0x45, 0x49, 0x4D, 0x51, 0x55, 0x59, 0x63, 0x67, 0x6B, 0x6F, 0x73, 0x77,
        0x30, 0x34, 0x38] : List Byte)) ∧
  encodeGroup 2 0x000000 = 0x4141413D ∧ encodeGroup 2 0xFFFF00 = 0x2F2F383D ∧ encodeGroup 2 0x4D6100 = 0x5457453D

/-- R88 (ENC1), whole: its word, whatever the ignored lanes hold; the next state where the beat fires; two padding
characters, in slots 2 and 3; the four characters slot 1 can be; no sign extension; the corner cases. -/
def Obligations.Enc1EncodesOneByte : Prop :=
  (∀ (a : Byte) (ignored : BitVec 16) (s : State),
    s.resetSeen = true → s.pins.rst = false → s.inReady = true →
    decode (0b01#2 ++ a ++ ignored : BitVec 26) = .enc1 a ignored ∧
    ∃ t, exec (.enc1 a ignored) s = .next t ∧ t.outValidQ = true ∧
      t.outDataQ = (lut (a.extractLsb' 2 6) ++ lut (a.extractLsb' 0 2 ++ 0b0000#4 : BitVec 6) ++ pad ++ pad : BitVec 32) ∧
      t.outDataQ = encodeGroup 1 (a ++ ignored : BitVec 24) ∧
      padCount t.outDataQ = 2 ∧ slotChar 2 t.outDataQ = pad ∧ slotChar 3 t.outDataQ = pad ∧
      (a.extractLsb' 0 2 = 0b00#2 → slotChar 1 t.outDataQ = 0x41) ∧
      (a.extractLsb' 0 2 = 0b01#2 → slotChar 1 t.outDataQ = 0x51) ∧
      (a.extractLsb' 0 2 = 0b10#2 → slotChar 1 t.outDataQ = 0x67) ∧
      (a.extractLsb' 0 2 = 0b11#2 → slotChar 1 t.outDataQ = 0x77)) ∧
  encodeGroup 1 0x800000 = 0x67413D3D ∧ encodeGroup 1 0xFF0000 = 0x2F773D3D ∧ encodeGroup 1 0x000000 = 0x41413D3D ∧
  encodeGroup 1 0x4D0000 = 0x54513D3D

/-- R89 (NOP), whole: its word, whatever the lanes hold; where it fires it is consumed with no output beat, `out_data_q` is
not written and `out_valid_q` is cleared if the waiting beat is taken at the same edge, else unchanged; it fires only into
an empty register or one being drained; a NOP anywhere in a beat sequence leaves the output alone. -/
def Obligations.NopIsConsumedWithoutOutput : Prop :=
  (∀ (ignored : BitVec 24) (s : State), s.resetSeen = true → s.pins.rst = false → s.inReady = true →
    decode (0b00#2 ++ ignored : BitVec 26) = .nop ignored ∧
    (s.outValidQ = true → s.fireOut = true) ∧
    ∃ t, exec (.nop ignored) s = .next t ∧ t.outDataQ = s.outDataQ ∧
      t.outValidQ = (if s.fireOut then false else s.outValidQ) ∧
      t.taken = s.taken ++ [.nop ignored] ∧
      t.received = (if s.fireOut then s.received ++ [s.outData] else s.received)) ∧
  (∀ (xs ys : List Instr) (ignored : BitVec 24), streamOutput (xs ++ .nop ignored :: ys) = streamOutput (xs ++ ys)) ∧
  streamOutput [.nop 0, .enc1 0x4D 0] = [0x54513D3D]

/-- R90: `3 - len` padding characters, all in the last slots. -/
def Obligations.PaddingCountIsThreeMinusLength : Prop :=
  ∀ (len : Len) (data : Lanes), len ≠ 0 →
    padCount (encodeGroup len data) = 3 - len.toNat ∧
    slotChar 0 (encodeGroup len data) ≠ pad ∧ slotChar 1 (encodeGroup len data) ≠ pad ∧
    (slotChar 2 (encodeGroup len data) = pad ↔ len = 1) ∧ (slotChar 3 (encodeGroup len data) = pad ↔ len ≠ 3)

/-- R91: the output depends on the present lanes only, and an operation's ignored lanes change nothing but the host's record
of the beat taken. -/
def Obligations.IgnoredLanesHaveNoEffect : Prop :=
  (∀ (len : Len) (data data' : Lanes), len ≠ 0 → laneA data = laneA data' →
    (bPresent len = true → laneB data = laneB data') → (cPresent len = true → laneC data = laneC data') →
    encodeGroup len data = encodeGroup len data') ∧
  (∀ (a b : Byte) (x y : BitVec 8) (s t : State), exec (.enc2 a b x) s = .next t →
    ∃ u, exec (.enc2 a b y) s = .next u ∧ u = { t with taken := u.taken }) ∧
  (∀ (a : Byte) (x y : BitVec 16) (s t : State), exec (.enc1 a x) s = .next t →
    ∃ u, exec (.enc1 a y) s = .next u ∧ u = { t with taken := u.taken }) ∧
  (∀ (x y : BitVec 24) (s t : State), exec (.nop x) s = .next t →
    ∃ u, exec (.nop y) s = .next u ∧ u = { t with taken := u.taken })

/-- R92: the output beat depends on `len` and the present lanes only: beats that agree there give the same one, whatever the
states they fire in. -/
def Obligations.SameBeatSameOutputInAnyState : Prop :=
  ∀ (i j : Instr) (s s' : State), i.isEmpty = false → i.plain = j.plain →
    s.resetSeen = true → s.pins.rst = false → s.inReady = true →
    s'.resetSeen = true → s'.pins.rst = false → s'.inReady = true →
    ∃ t t', exec i s = .next t ∧ exec j s' = .next t' ∧ waiting t = waiting t' ∧ (waiting t).length = 1

/-- R93: every byte of every output beat is an alphabet entry or `PAD`, with bit 7 zero, in 0x2B..0x7A. -/
def Obligations.OutputBytesAreAsciiAlphabet : Prop :=
  ∀ (len : Len) (data : Lanes), len ≠ 0 → ∀ ch ∈ chars (encodeGroup len data),
    (ch ∈ lutTable ∨ ch = pad) ∧ ch.getLsbD 7 = false ∧ 0x2B ≤ ch.toNat ∧ ch.toNat ≤ 0x7A

/-- The frame of ENC1, ENC2 and ENC3: when `exec` gives a next state, only `out_valid_q` and `out_data_q` of the stage may
have changed, the data only where the beat fires; the host's records grow by the fires and only so (a reset edge starts those
of R117 again, and the deliveries go on); the host moves one cycle on. There is no memory, and the table is a constant (R27,
R40, R47). -/
def Obligations.EncodingBeatsFrame : Prop :=
  ∀ (i : Instr) (s t : State), i.isEmpty = false → exec i s = .next t →
    (s.inReady = false → t.outDataQ = s.outDataQ) ∧
    (s.inReady = false → s.pins.rst = false → t.outValidQ = s.outValidQ) ∧
    (s.resetSeen = true → t.resetSeen = s.resetSeen) ∧
    (s.pins.rst = false → t.taken = (if s.inReady then s.taken ++ [i] else s.taken)) ∧
    (s.pins.rst = false → t.received = (if s.fireOut then s.received ++ [s.outData] else s.received)) ∧
    (s.pins.rst = false → t.earlier = s.earlier) ∧
    t.delivered = (if s.fireOut then s.delivered ++ [s.outData] else s.delivered) ∧
    t.schedule = s.schedule.tail ∧ t.cycle = s.cycle + 1

/-- The frame of NOP: when `exec` gives a next state, `out_data_q` is as before, whether the beat fires, waits or meets a
reset edge, and `out_valid_q` never rises (R89, R150); the rest as for the encoding beats. -/
def Obligations.NopFrame : Prop :=
  ∀ (ignored : BitVec 24) (s t : State), exec (.nop ignored) s = .next t →
    t.outDataQ = s.outDataQ ∧ (t.outValidQ = true → s.outValidQ = true) ∧
    (s.inReady = false → s.pins.rst = false → t.outValidQ = s.outValidQ) ∧
    (s.resetSeen = true → t.resetSeen = s.resetSeen) ∧
    (s.pins.rst = false → s.inReady = false → t.taken = s.taken) ∧
    (s.pins.rst = false → t.received = (if s.fireOut then s.received ++ [s.outData] else s.received)) ∧
    (s.pins.rst = false → t.earlier = s.earlier) ∧
    t.delivered = (if s.fireOut then s.delivered ++ [s.outData] else s.delivered) ∧
    t.schedule = s.schedule.tail ∧ t.cycle = s.cycle + 1

/-! ### Handshake and clock step (41_stream_framing.md) -/

/-- R110, wherever the rules hold (R152): the equation, and that `in_ready` depends on `rst`, `out_valid_q` and `out_ready`
only. Before that see `PortValuesBeforeResetAreTheModelsOwn`. -/
def Obligations.InReadyEquation : Prop :=
  (∀ s : State, RulesHold s → s.inReady = (!s.pins.rst && (!s.outValidQ || s.pins.outReady))) ∧
  (∀ s t : State, RulesHold s → RulesHold t → t.pins.rst = s.pins.rst → t.outValidQ = s.outValidQ →
    t.pins.outReady = s.pins.outReady → t.inReady = s.inReady)

/-- R111, wherever the rules hold (R152): the equations, that the output ports depend on the registers and `rst` only, and
that `out_data` is a beat only where `out_valid` is 1. Before that see `PortValuesBeforeResetAreTheModelsOwn`. -/
def Obligations.OutputPortEquations : Prop :=
  (∀ s : State, RulesHold s → s.outValid = (s.outValidQ && !s.pins.rst) ∧ s.outData = s.outDataQ ∧
    (s.outBeat = none ↔ s.outValid = false) ∧ (s.outValid = true → s.outBeat = some s.outData)) ∧
  (∀ s t : State, RulesHold s → RulesHold t → t.pins.rst = s.pins.rst → t.outValidQ = s.outValidQ →
    t.outDataQ = s.outDataQ → t.outValid = s.outValid ∧ t.outData = s.outData ∧ t.outBeat = s.outBeat)

/-- R112, wherever the rules hold (R152): when each side fires; and the data pins of a cycle with `in_valid` = 0 have no
effect. -/
def Obligations.FiresNeedBothSidesAndIdleDataIsIgnored : Prop :=
  (∀ s : State, RulesHold s →
    s.fireIn = (s.pins.inValid && s.inReady) ∧ s.fireOut = (s.outValid && s.pins.outReady)) ∧
  (∀ (s : State) (p : Pins) (len : Len) (data : Lanes), p.inValid = false →
    runPins [p] s = runPins [{ p with inLen := len, inData := data }] s)

/-- A step runs the operation the decoder reads from the input port when a beat is offered (R60, R112; log entry 11). -/
def Obligations.StepRunsTheOfferedBeat : Prop :=
  ∀ (s : State) (i : Instr), s.pins.inValid = true → decode (beatWord s.pins.inLen s.pins.inData) = i → step s = exec i s

/-- R113: the registers after any edge, straight from the ports and registers before it. -/
def Obligations.ClockEdgeUpdatesTheRegisters : Prop :=
  ∀ s : State, (s.resetSeen = true ∨ s.pins.rst = true) →
    ∃ t, step s = .next t ∧
      (s.pins.rst = true → t.outValidQ = false ∧ t.outDataQ = s.outDataQ) ∧
      (s.pins.rst = false →
        let fireIn := s.pins.inValid && (!s.outValidQ || s.pins.outReady)
        let fireOut := s.outValidQ && s.pins.outReady
        t.outValidQ = (if fireIn && s.pins.inLen != 0 then true else if fireOut then false else s.outValidQ) ∧
        t.outDataQ = (if fireIn && s.pins.inLen != 0 then encodeGroup s.pins.inLen s.pins.inData else s.outDataQ))

/-- R114: an output beat is delivered exactly where `fire_out` is 1 and it is that cycle's `out_data`, at every edge, a reset
edge too; and over any run the consumer receives the values of `out_data` at the `fire_out` edges, in edge order. -/
def Obligations.DeliveryIsAtFireOutEdges : Prop :=
  (∀ s t : State, step s = .next t →
    t.delivered = (if s.fireOut then s.delivered ++ [s.outData] else s.delivered)) ∧
  (∀ (n : Nat) (s t : State), core.run n s = .next t → t.delivered = s.delivered ++ deliveries n s)

/-- A beat is taken exactly where `fire_in` is 1, whole and once (R46, R112; the record is the model's own, log entry 3). -/
def Obligations.TakingIsAtFireInEdges : Prop :=
  ∀ s t : State, step s = .next t →
    (s.pins.rst = false →
      t.taken = (if s.fireIn then s.taken ++ [decode (beatWord s.pins.inLen s.pins.inData)] else s.taken)) ∧
    (s.pins.rst = true → s.fireIn = false)

/-- R115, past the first reset edge (R152): under back-pressure nothing fires and the registers stay, for as many cycles as
it lasts, whatever is offered. -/
def Obligations.WaitingBeatIsHeldUnderBackPressure : Prop :=
  (∀ s : State, s.resetSeen = true → s.pins.rst = false → s.outValidQ = true → s.pins.outReady = false →
    s.inReady = false ∧ s.fireIn = false ∧ s.fireOut = false) ∧
  (∀ (s : State) (ps : List Pins), s.resetSeen = true → s.outValidQ = true →
    (∀ p ∈ ps, p.rst = false ∧ p.outReady = false) →
    ∃ t, runPins ps s = .next t ∧ t.outValidQ = true ∧ t.outDataQ = s.outDataQ ∧ t.taken = s.taken ∧
      t.received = s.received ∧ t.delivered = s.delivered)

/-- R116: a waiting beat is delivered and replaced at the same edge; with `out_ready` held at 1 every offered beat is taken
in its cycle and delivered one edge later. -/
def Obligations.FullThroughput : Prop :=
  (∀ (s : State) (i : Instr), s.resetSeen = true → s.pins.rst = false → s.outValidQ = true → s.pins.outReady = true →
    s.offered = some i → i.isEmpty = false →
    s.fireIn = true ∧ s.fireOut = true ∧
    ∃ t, step s = .next t ∧ t.outValidQ = true ∧ some t.outDataQ = beatOutput i ∧
      t.received = s.received ++ [s.outDataQ]) ∧
  (∀ (s : State) (beats : List Instr) (last : Instr), s.resetSeen = true →
    ∃ t, runPins ((beats ++ [last]).map fun i => pinsOffer (encode i) true) s = .next t ∧
      t.taken = s.taken ++ beats ++ [last] ∧
      t.received = s.received ++ waiting s ++ streamOutput beats ∧ waiting t = streamOutput [last])

/-- R117: whatever the host does after a reset edge, what was delivered and what waits are the encodings of the non-empty
beats taken, in order, each once; all are delivered, or all but the last, which waits. -/
def Obligations.StageMapsEncodeGroupOverBeats : Prop :=
  ∀ (s : State) (ps : List Pins), s.resetSeen = true → s.outValidQ = false → s.taken = [] → s.received = [] →
    (∀ p ∈ ps, p.rst = false) →
    ∃ t, runPins ps s = .next t ∧
      t.received ++ waiting t = streamOutput t.taken ∧
      (t.outValidQ = false → t.received = streamOutput t.taken) ∧
      (t.received.length = (streamOutput t.taken).length ∨
        (t.received.length + 1 = (streamOutput t.taken).length ∧ t.outValidQ = true)) ∧
      streamOutput t.taken = streamOutput (t.taken.filter fun i => !i.isEmpty)

/-- The invariant of R49 and R117, kept by every step from every state. -/
def Obligations.StreamOrderIsInvariant : Prop := ∀ s t : State, StreamOrdered s → step s = .next t → StreamOrdered t

/-- The invariant of R49 and R117 holds right after reset, and at power-on whatever the registers hold. -/
def Obligations.StreamOrderHoldsAtReset : Prop :=
  StreamOrdered State.reset ∧ ∀ (valid : Bool) (data : OutBeat), StreamOrdered (State.powerOn valid data)

/-- Every beat ever delivered, and the one waiting, is legal (R61, R90, R93): kept by every step from every state. -/
def Obligations.OutputLegalityIsInvariant : Prop := ∀ s t : State, OutputLegal s → step s = .next t → OutputLegal t

/-- Output legality holds right after reset, and at power-on whatever the registers hold. -/
def Obligations.OutputLegalityHoldsAtReset : Prop :=
  OutputLegal State.reset ∧ ∀ (valid : Bool) (data : OutBeat), OutputLegal (State.powerOn valid data)

/-- R118: the beats of a byte sequence, their number, lengths and lanes; they keep the framing duty, with NOPs anywhere. -/
def Obligations.FramingSplitsIntoGroupsOfThree : Prop :=
  ∀ bytes : List Byte,
    (frame bytes).length = (bytes.length + 2) / 3 ∧
    (∀ (j : Nat) (i : Instr), (frame bytes)[j]? = some i →
      (lenOf (encode i)).toNat = min 3 (bytes.length - 3 * j) ∧
      bytes[3 * j]? = some (laneA (dataOf (encode i))) ∧
      (2 ≤ (lenOf (encode i)).toNat → bytes[3 * j + 1]? = some (laneB (dataOf (encode i)))) ∧
      ((lenOf (encode i)).toNat = 3 → bytes[3 * j + 2]? = some (laneC (dataOf (encode i))))) ∧
    wellFramed (frame bytes) = true ∧
    (∀ (xs ys : List Instr) (ignored : BitVec 24), xs ++ ys = frame bytes → wellFramed (xs ++ .nop ignored :: ys) = true)

/-- R120: with the beats of the byte sequence taken, NOPs left aside and the ignored lanes holding anything, and every output
beat delivered, the joined string is standard Base64; and a host that offers them at full rate and always takes gets there in
`ceil(n/3) + 1` cycles. -/
def Obligations.HostObtainsStandardBase64 : Prop :=
  (∀ (s : State) (bytes : List Byte), StreamOrdered s → s.resetSeen = true → s.outValidQ = false →
    (s.taken.filter fun i => !i.isEmpty).map Instr.plain = frame bytes → joinBeats s.received = base64 bytes) ∧
  (∀ (s : State) (bytes : List Byte), s.resetSeen = true → s.outValidQ = false → s.received = [] →
    ∃ t, runPins (fullRate (frame bytes)) s = .next t ∧ t.outValidQ = false ∧ joinBeats t.received = base64 bytes ∧
      (fullRate (frame bytes)).length = (bytes.length + 2) / 3 + 1)

/-- R121: the output length. -/
def Obligations.OutputLengthIsFourPerGroup : Prop :=
  encodeBytes [] = [] ∧ ∀ bytes : List Byte, (encodeBytes bytes).length = 4 * ((bytes.length + 2) / 3)

/-- R122: padding appears only as a suffix of length `(3 - n mod 3) mod 3`. -/
def Obligations.PaddingIsASuffix : Prop :=
  ∀ bytes : List Byte, ∃ body : List Byte,
    encodeBytes bytes = body ++ List.replicate ((3 - bytes.length % 3) % 3) pad ∧ pad ∉ body

/-- R123: a split after a multiple of 3 bytes concatenates, and a split elsewhere before further bytes does not. -/
def Obligations.SplitsConcatenateAtMultiplesOfThree : Prop :=
  ∀ b1 b2 : List Byte,
    (b1.length % 3 = 0 → encodeBytes (b1 ++ b2) = encodeBytes b1 ++ encodeBytes b2 ∧
      frame (b1 ++ b2) = frame b1 ++ frame b2 ∧ ∀ i ∈ frame b1, i.isShort = false ∧ i.isEmpty = false) ∧
    (b1.length % 3 ≠ 0 → b2 ≠ [] → encodeBytes (b1 ++ b2) ≠ encodeBytes b1 ++ encodeBytes b2)

/-- A short beat before further non-empty beats (R124): it is encoded with its padding, so a padding character stands
before an alphabet character; and a beat sequence's string is some byte sequence's encoding exactly if the framing duty was
kept. -/
def Obligations.BrokenFramingPadsMidString : Prop :=
  (∀ (xs ys zs : List Instr) (i j : Instr), i.isShort = true → j.isEmpty = false →
    ∃ (u v : List Byte) (ch : Byte), ch ∈ v ∧ ch ≠ pad ∧
      joinBeats (streamOutput (xs ++ i :: ys ++ j :: zs)) = u ++ pad :: v) ∧
  (∀ beats : List Instr,
    wellFramed beats = true ↔ ∃ bytes : List Byte, joinBeats (streamOutput beats) = encodeBytes bytes)

/-- R125: encoding the string of any non-empty byte sequence again gives neither the bytes nor the string back; it is the
standard Base64 of the standard Base64, of the length R121 fixes, longer at each encoding. -/
def Obligations.EncodingTwiceIsNotTheInput : Prop :=
  ∀ bytes : List Byte, bytes ≠ [] →
    encodeBytes (encodeBytes bytes) ≠ bytes ∧ encodeBytes (encodeBytes bytes) ≠ encodeBytes bytes ∧
    encodeBytes (encodeBytes bytes) = base64 (base64 bytes) ∧
    (encodeBytes (encodeBytes bytes)).length = 4 * ((4 * ((bytes.length + 2) / 3) + 2) / 3) ∧
    bytes.length < (encodeBytes bytes).length ∧
    (encodeBytes bytes).length < (encodeBytes (encodeBytes bytes)).length

/-- R127, past the first reset edge (R152): with `rst` = 0 and `out_ready` = 1 the stage is ready; a waiting beat is delivered
at the first such edge, however long it waited; the cost is linear. -/
def Obligations.StageNeverStallsByItself : Prop :=
  (∀ s : State, s.resetSeen = true → s.pins.rst = false → s.pins.outReady = true → s.inReady = true) ∧
  (∀ (s : State) (ps : List Pins) (p : Pins), s.resetSeen = true → s.outValidQ = true →
    (∀ q ∈ ps, q.rst = false ∧ q.outReady = false) → p.rst = false → p.outReady = true →
    ∃ t, runPins (ps ++ [p]) s = .next t ∧ t.received = s.received ++ [s.outDataQ]) ∧
  (∀ bytes : List Byte, (frame bytes).length = (bytes.length + 2) / 3 ∧
    (streamOutput (frame bytes)).length = (frame bytes).length)

/-! ### No exceptions (60_exceptions.md) -/

/-- R130: past the first reset edge, every beat, every sequence of pins and every timing gives a next state; nothing ever
faults. -/
def Obligations.NothingEverFaults : Prop :=
  (∀ (i : Instr) (s : State), s.resetSeen = true → ∃ t, exec i s = .next t ∧ t.resetSeen = true) ∧
  (∀ (ps : List Pins) (s : State), s.resetSeen = true → ∃ t, runPins ps s = .next t ∧ t.resetSeen = true) ∧
  (∀ (s : State) (f : Fault), step s ≠ .fault f)

/-! ### Reset and hazards (70_reset_and_hazards.md) -/

/-- R150: an edge with `rst` = 1, whatever is offered and whatever the state. -/
def Obligations.ResetEdgeClearsOnlyValid : Prop :=
  ∀ s : State, s.pins.rst = true →
    s.fireIn = false ∧ s.fireOut = false ∧
    ∃ t, step s = .next t ∧ t.outValidQ = false ∧ t.outDataQ = s.outDataQ ∧ ∀ i : Instr, exec i s = .next t

/-- R151: in a reset cycle neither side can transfer. -/
def Obligations.NoTransferWhileInReset : Prop :=
  ∀ s : State, s.pins.rst = true →
    s.inReady = false ∧ s.outValid = false ∧ s.fireIn = false ∧ s.fireOut = false ∧ s.outBeat = none

/-- R152: before the first reset edge no rule holds, which the model answers by a refusal of every edge but a reset edge (log
entry 4); one reset edge suffices, and more have the same result, whatever the registers held. -/
def Obligations.OneResetEdgeSuffices : Prop :=
  (∀ s : State, s.resetSeen = false → s.pins.rst = false →
    step s = .refused .beforeFirstReset ∧ ∀ i : Instr, exec i s = .refused .beforeFirstReset) ∧
  (∀ (s : State) (ps : List Pins), ps ≠ [] → (∀ p ∈ ps, p.rst = true) →
    ∃ t, runPins ps s = .next t ∧
      t = { s with
            outValidQ := false, resetSeen := true, cycle := s.cycle + ps.length, taken := [], received := [],
            earlier := s.delivered })

/-- A reset edge leaves the reset state, but for the data register, the host's coming pins and what the consumer has received:
a waiting beat is discarded, never delivered, and the stage remembers no beat before the edge (R31, R154; that the records of
R117 start again is the model's own, log entry 3). -/
def Obligations.ResetEdgeGivesTheResetState : Prop :=
  ∀ s t : State, s.pins.rst = true → step s = .next t →
    t = { State.reset with
          outDataQ := s.outDataQ, schedule := s.schedule.tail, cycle := s.cycle + 1, earlier := s.delivered } ∧
    t.delivered = s.delivered

/-- Stale contents of `out_data_q` are never observed: states that differ only there present the same beat and take the same
steps, however long they run (R156; 93_implementation_defined.md I2; log entry 1; before the first reset edge the port
values are the model's choice, log entry 18). -/
def Obligations.StaleDataIsNeverObserved : Prop :=
  (∀ s u : State, SameButStale s u →
    u.outBeat = s.outBeat ∧ u.inReady = s.inReady ∧ u.fireIn = s.fireIn ∧ u.fireOut = s.fireOut) ∧
  (∀ s u t : State, SameButStale s u → step s = .next t → ∃ v, step u = .next v ∧ SameButStale t v) ∧
  (∀ (n : Nat) (s u t : State), SameButStale s u → core.run n s = .next t →
    ∃ v, core.run n u = .next v ∧ SameButStale t v)

/-- Placing a word makes the next step run its operation, and the beat fires (log entry 7, the model's own). -/
def Obligations.PlacedWordRunsNext : Prop :=
  ∀ (s : State) (w : Nat), w < 2 ^ 26 →
    ∃ i, decodeTableWord 26 w = some i ∧ step (s.withFetchWord 26 w) = exec i (s.withFetchWord 26 w) ∧
      (s.withFetchWord 26 w).fireIn = true ∧
      ∃ t, step (s.withFetchWord 26 w) = .next t ∧ t.taken = s.taken ++ [i]

/-- Before the first reset edge, in a cycle with `rst` = 0, the spec leaves the port values unspecified (R31, R152). That the
model computes them by the equations of R110 to R112 there too is its own choice (log entry 18); the edge is refused, so
they reach no state. -/
def Obligations.PortValuesBeforeResetAreTheModelsOwn : Prop :=
  ∀ s : State, s.resetSeen = false → s.pins.rst = false →
    s.inReady = (!s.outValidQ || s.pins.outReady) ∧ s.outValid = s.outValidQ ∧
    s.fireIn = (s.pins.inValid && s.inReady) ∧ s.fireOut = (s.outValid && s.pins.outReady) ∧
    step s = .refused .beforeFirstReset ∧ deliveries 1 s = []
end

