-- ==== Sys2Proof/Laws/Datapath.lean ====
section
/-! SUPPORT. The datapath: lanes and slots of a concatenation, the indices as slices of the bytes, the table. -/

namespace Sys2Proof.Machine

/-! ### Slices of a concatenation -/

@[simp] theorem slotChar_zero_outBeatOf (s0 s1 s2 s3 : Byte) : slotChar 0 (outBeatOf s0 s1 s2 s3) = s0 := by
  apply BitVec.eq_of_getLsbD_eq; intro i hi
  simp only [slotChar, outBeatOf, BitVec.getLsbD_extractLsb', BitVec.getLsbD_append]
  simp [hi, show ¬ 24 + i < 8 by omega, show ¬ 24 + i - 8 < 8 by omega, show ¬ 24 + i - 8 - 8 < 8 by omega,
    show 24 + i - 8 - 8 - 8 = i by omega]

@[simp] theorem slotChar_one_outBeatOf (s0 s1 s2 s3 : Byte) : slotChar 1 (outBeatOf s0 s1 s2 s3) = s1 := by
  apply BitVec.eq_of_getLsbD_eq; intro i hi
  simp only [slotChar, outBeatOf, BitVec.getLsbD_extractLsb', BitVec.getLsbD_append]
  simp [hi, show ¬ 16 + i < 8 by omega, show ¬ 16 + i - 8 < 8 by omega,
    show 16 + i - 8 - 8 = i by omega]

@[simp] theorem slotChar_two_outBeatOf (s0 s1 s2 s3 : Byte) : slotChar 2 (outBeatOf s0 s1 s2 s3) = s2 := by
  apply BitVec.eq_of_getLsbD_eq; intro i hi
  simp only [slotChar, outBeatOf, BitVec.getLsbD_extractLsb', BitVec.getLsbD_append]
  simp [hi, show ¬ 8 + i < 8 by omega, show 8 + i - 8 = i by omega]

@[simp] theorem slotChar_three_outBeatOf (s0 s1 s2 s3 : Byte) : slotChar 3 (outBeatOf s0 s1 s2 s3) = s3 := by
  apply BitVec.eq_of_getLsbD_eq; intro i hi
  simp only [slotChar, outBeatOf, BitVec.getLsbD_extractLsb', BitVec.getLsbD_append]
  simp [hi]

/-- An output beat is its four characters. -/
theorem outBeatOf_slotChar (d : OutBeat) :
    outBeatOf (slotChar 0 d) (slotChar 1 d) (slotChar 2 d) (slotChar 3 d) = d := by
  apply BitVec.eq_of_getLsbD_eq; intro i hi
  simp only [slotChar, outBeatOf, BitVec.getLsbD_extractLsb', BitVec.getLsbD_append]
  interval_cases i <;> simp

/-- The OR of the three placed bytes is their concatenation (R82). -/
theorem pack_eq_append (a b c : Byte) : pack a b c = (a ++ b ++ c : BitVec 24) := by
  apply BitVec.eq_of_getLsbD_eq; intro i hi
  simp only [pack, BitVec.getLsbD_append]
  interval_cases i <;> simp

/-! ### The indices as slices of the bytes (R83) -/

theorem slotIndex_zero_pack (a b c : Byte) : slotIndex 0 (pack a b c) = a.extractLsb' 2 6 := by
  apply BitVec.eq_of_getLsbD_eq; intro i hi
  simp only [slotIndex, pack_eq_append, BitVec.getLsbD_setWidth, BitVec.getLsbD_and, BitVec.getLsbD_ushiftRight,
    BitVec.getLsbD_append, BitVec.getLsbD_extractLsb']
  interval_cases i <;> simp

theorem slotIndex_one_pack (a b c : Byte) :
    slotIndex 1 (pack a b c) = (a.extractLsb' 0 2 ++ b.extractLsb' 4 4 : BitVec 6) := by
  apply BitVec.eq_of_getLsbD_eq; intro i hi
  simp only [slotIndex, pack_eq_append, BitVec.getLsbD_setWidth, BitVec.getLsbD_and, BitVec.getLsbD_ushiftRight,
    BitVec.getLsbD_append, BitVec.getLsbD_extractLsb']
  interval_cases i <;> simp

theorem slotIndex_two_pack (a b c : Byte) :
    slotIndex 2 (pack a b c) = (b.extractLsb' 0 4 ++ c.extractLsb' 6 2 : BitVec 6) := by
  apply BitVec.eq_of_getLsbD_eq; intro i hi
  simp only [slotIndex, pack_eq_append, BitVec.getLsbD_setWidth, BitVec.getLsbD_and, BitVec.getLsbD_ushiftRight,
    BitVec.getLsbD_append, BitVec.getLsbD_extractLsb']
  interval_cases i <;> simp

theorem slotIndex_three_pack (a b c : Byte) : slotIndex 3 (pack a b c) = c.extractLsb' 0 6 := by
  apply BitVec.eq_of_getLsbD_eq; intro i hi
  simp only [slotIndex, pack_eq_append, BitVec.getLsbD_setWidth, BitVec.getLsbD_and, BitVec.getLsbD_ushiftRight,
    BitVec.getLsbD_append, BitVec.getLsbD_extractLsb']
  interval_cases i <;> simp

/-! ### The lanes of a data field given as bytes (R42, R60) -/

@[simp] theorem laneA_append (a b c : Byte) : laneA (a ++ b ++ c : BitVec 24) = a := by
  apply BitVec.eq_of_getLsbD_eq; intro i hi
  simp only [laneA, BitVec.getLsbD_append, BitVec.getLsbD_extractLsb']
  interval_cases i <;> simp

@[simp] theorem laneB_append (a b c : Byte) : laneB (a ++ b ++ c : BitVec 24) = b := by
  apply BitVec.eq_of_getLsbD_eq; intro i hi
  simp only [laneB, BitVec.getLsbD_append, BitVec.getLsbD_extractLsb']
  interval_cases i <;> simp

@[simp] theorem laneC_append (a b c : Byte) : laneC (a ++ b ++ c : BitVec 24) = c := by
  apply BitVec.eq_of_getLsbD_eq; intro i hi
  simp only [laneC, BitVec.getLsbD_append, BitVec.getLsbD_extractLsb']
  interval_cases i <;> simp

@[simp] theorem laneA_append_pair (a : Byte) (x : BitVec 16) : laneA (a ++ x : BitVec 24) = a := by
  apply BitVec.eq_of_getLsbD_eq; intro i hi
  simp only [laneA, BitVec.getLsbD_append, BitVec.getLsbD_extractLsb']
  interval_cases i <;> simp

/-! ### The table (R26) -/

theorem lut_mem (i : Index) : lut i ∈ lutTable := List.getElem_mem _

theorem pad_not_mem_lutTable : pad ∉ lutTable := by decide

theorem lut_ne_pad (i : Index) : lut i ≠ pad := fun h => pad_not_mem_lutTable (h ▸ lut_mem i)

theorem lutTable_nodup : lutTable.Nodup := by decide

theorem lut_injective {i j : Index} (h : lut i = lut j) : i = j :=
  BitVec.eq_of_toNat_eq ((List.Nodup.getElem_inj_iff lutTable_nodup).mp h)

/-- The table is the closed form of R26. -/
theorem lut_eq_base64Char (i : Index) : lut i = base64Char i.toNat := by
  have h : ∀ n : Fin 64, lut (BitVec.ofFin n) = base64Char n.val := by decide
  exact h i.toFin

/-! ### The datapath by group length (R85 to R88) -/

theorem encodeGroup_three (a b c : Byte) :
    encodeGroup 3 (a ++ b ++ c : BitVec 24) =
      outBeatOf (lut (a.extractLsb' 2 6)) (lut (a.extractLsb' 0 2 ++ b.extractLsb' 4 4 : BitVec 6))
        (lut (b.extractLsb' 0 4 ++ c.extractLsb' 6 2 : BitVec 6)) (lut (c.extractLsb' 0 6)) := by
  simp only [encodeGroup, packedValue, laneA_append, laneB_append, laneC_append]
  rw [show bPresent 3 = true from rfl, show cPresent 3 = true from rfl]
  simp only [maskLane, padSelect, if_true, slotIndex_zero_pack, slotIndex_one_pack, slotIndex_two_pack,
    slotIndex_three_pack]

theorem encodeGroup_two (a b x : Byte) :
    encodeGroup 2 (a ++ b ++ x : BitVec 24) =
      outBeatOf (lut (a.extractLsb' 2 6)) (lut (a.extractLsb' 0 2 ++ b.extractLsb' 4 4 : BitVec 6))
        (lut (b.extractLsb' 0 4 ++ 0#2 : BitVec 6)) pad := by
  simp only [encodeGroup, packedValue, laneA_append, laneB_append, laneC_append]
  rw [show bPresent 2 = true from rfl, show cPresent 2 = false from rfl]
  simp only [maskLane, padSelect, if_true, Bool.false_eq_true, if_false, slotIndex_zero_pack, slotIndex_one_pack,
    slotIndex_two_pack]
  rfl

theorem encodeGroup_one (a : Byte) (x : BitVec 16) :
    encodeGroup 1 (a ++ x : BitVec 24) =
      outBeatOf (lut (a.extractLsb' 2 6)) (lut (a.extractLsb' 0 2 ++ 0#4 : BitVec 6)) pad pad := by
  simp only [encodeGroup, packedValue, laneA_append_pair]
  rw [show bPresent 1 = false from rfl, show cPresent 1 = false from rfl]
  simp only [maskLane, padSelect, Bool.false_eq_true, if_false, slotIndex_zero_pack, slotIndex_one_pack]
  rfl

end Sys2Proof.Machine
end

