-- ==== Sys2Proof/Laws/Decode.lean ====
section
/-! SUPPORT. The fields of an encoded operation (R60, R63). -/

namespace Sys2Proof

theorem beatWord_lenOf_dataOf (w : BeatWord) : beatWord (lenOf w) (dataOf w) = w := by
  apply BitVec.eq_of_getLsbD_eq; intro i hi
  simp only [beatWord, lenOf, dataOf, BitVec.getLsbD_append, BitVec.getLsbD_extractLsb']
  interval_cases i <;> simp

theorem lenOf_beatWord (len : Len) (data : Lanes) : lenOf (beatWord len data) = len := by
  apply BitVec.eq_of_getLsbD_eq; intro i hi
  simp only [beatWord, lenOf, BitVec.getLsbD_append, BitVec.getLsbD_extractLsb']
  interval_cases i <;> simp

theorem dataOf_beatWord (len : Len) (data : Lanes) : dataOf (beatWord len data) = data := by
  apply BitVec.eq_of_getLsbD_eq; intro i hi
  simp only [beatWord, dataOf, BitVec.getLsbD_append, BitVec.getLsbD_extractLsb']
  interval_cases i <;> simp

theorem encode_enc3 (a b c : Byte) : encode (.enc3 a b c) = beatWord 3 (a ++ b ++ c : BitVec 24) := by
  apply BitVec.eq_of_getLsbD_eq; intro i hi
  simp only [encode, beatWord, BitVec.getLsbD_append]
  interval_cases i <;> simp

theorem encode_enc2 (a b : Byte) (x : BitVec 8) :
    encode (.enc2 a b x) = beatWord 2 (a ++ b ++ x : BitVec 24) := by
  apply BitVec.eq_of_getLsbD_eq; intro i hi
  simp only [encode, beatWord, BitVec.getLsbD_append]
  interval_cases i <;> simp

theorem encode_enc1 (a : Byte) (x : BitVec 16) : encode (.enc1 a x) = beatWord 1 (a ++ x : BitVec 24) := by
  apply BitVec.eq_of_getLsbD_eq; intro i hi
  simp only [encode, beatWord, BitVec.getLsbD_append]
  interval_cases i <;> simp

theorem encode_nop (x : BitVec 24) : encode (.nop x) = beatWord 0 x := rfl

theorem lenOf_encode (i : Instr) :
    lenOf (encode i) = match i with
      | .enc3 _ _ _ => 3
      | .enc2 _ _ _ => 2
      | .enc1 _ _ => 1
      | .nop _ => 0 := by
  cases i with
  | enc3 a b c => rw [encode_enc3, lenOf_beatWord]
  | enc2 a b x => rw [encode_enc2, lenOf_beatWord]
  | enc1 a x => rw [encode_enc1, lenOf_beatWord]
  | nop x => rw [encode_nop, lenOf_beatWord]

theorem dataOf_encode (i : Instr) :
    dataOf (encode i) = match i with
      | .enc3 a b c => (a ++ b ++ c : BitVec 24)
      | .enc2 a b x => (a ++ b ++ x : BitVec 24)
      | .enc1 a x => (a ++ x : BitVec 24)
      | .nop x => x := by
  cases i with
  | enc3 a b c => rw [encode_enc3, dataOf_beatWord]
  | enc2 a b x => rw [encode_enc2, dataOf_beatWord]
  | enc1 a x => rw [encode_enc1, dataOf_beatWord]
  | nop x => rw [encode_nop, dataOf_beatWord]

/-- A beat is empty exactly when its length field is 0 (R63). -/
theorem isEmpty_iff_lenOf_encode (i : Instr) : i.isEmpty = true ↔ lenOf (encode i) = 0 := by
  rw [lenOf_encode]; cases i <;> simp [Instr.isEmpty]

end Sys2Proof
end

