-- ==== Sys2Proof/Laws/State.lean ====
section
/-! SUPPORT. One lemma per field per update of the state, so that no proof unfolds a record update. -/

namespace Sys2Proof.Machine

variable (s : State) (o : Option Offer) (w : BeatWord)

@[simp] theorem nextCycle_outValidQ : s.nextCycle.outValidQ = s.outValidQ := rfl
@[simp] theorem nextCycle_outDataQ : s.nextCycle.outDataQ = s.outDataQ := rfl
@[simp] theorem nextCycle_resetSeen : s.nextCycle.resetSeen = s.resetSeen := rfl
@[simp] theorem nextCycle_schedule : s.nextCycle.schedule = s.schedule.tail := rfl
@[simp] theorem nextCycle_cycle : s.nextCycle.cycle = s.cycle + 1 := rfl
@[simp] theorem nextCycle_taken : s.nextCycle.taken = s.taken := rfl
@[simp] theorem nextCycle_received : s.nextCycle.received = s.received := rfl
@[simp] theorem nextCycle_earlier : s.nextCycle.earlier = s.earlier := rfl

@[simp] theorem resetEdge_outValidQ : s.resetEdge.outValidQ = false := rfl
@[simp] theorem resetEdge_outDataQ : s.resetEdge.outDataQ = s.outDataQ := rfl
@[simp] theorem resetEdge_resetSeen : s.resetEdge.resetSeen = true := rfl
@[simp] theorem resetEdge_schedule : s.resetEdge.schedule = s.schedule.tail := rfl
@[simp] theorem resetEdge_cycle : s.resetEdge.cycle = s.cycle + 1 := rfl
@[simp] theorem resetEdge_taken : s.resetEdge.taken = [] := rfl
@[simp] theorem resetEdge_received : s.resetEdge.received = [] := rfl
@[simp] theorem resetEdge_earlier : s.resetEdge.earlier = s.delivered := rfl

@[simp] theorem dataEdge_outValidQ : (s.dataEdge o).outValidQ = s.nextOutValidQ o := rfl
@[simp] theorem dataEdge_outDataQ : (s.dataEdge o).outDataQ = s.nextOutDataQ o := rfl
@[simp] theorem dataEdge_resetSeen : (s.dataEdge o).resetSeen = s.resetSeen := rfl
@[simp] theorem dataEdge_schedule : (s.dataEdge o).schedule = s.schedule.tail := rfl
@[simp] theorem dataEdge_cycle : (s.dataEdge o).cycle = s.cycle + 1 := rfl
@[simp] theorem dataEdge_taken : (s.dataEdge o).taken = s.nextTaken o := rfl
@[simp] theorem dataEdge_received : (s.dataEdge o).received = s.nextReceived := rfl
@[simp] theorem dataEdge_earlier : (s.dataEdge o).earlier = s.earlier := rfl

@[simp] theorem placeBeat_outValidQ : (s.placeBeat w).outValidQ = s.outValidQ := rfl
@[simp] theorem placeBeat_outDataQ : (s.placeBeat w).outDataQ = s.outDataQ := rfl
@[simp] theorem placeBeat_resetSeen : (s.placeBeat w).resetSeen = true := rfl
@[simp] theorem placeBeat_schedule : (s.placeBeat w).schedule = pinsOffer w true :: s.schedule := rfl
@[simp] theorem placeBeat_taken : (s.placeBeat w).taken = s.taken := rfl
@[simp] theorem placeBeat_received : (s.placeBeat w).received = s.received := rfl
@[simp] theorem placeBeat_earlier : (s.placeBeat w).earlier = s.earlier := rfl

@[simp] theorem driven_outValidQ (ps : List Pins) : (driven ps s).outValidQ = s.outValidQ := rfl
@[simp] theorem driven_outDataQ (ps : List Pins) : (driven ps s).outDataQ = s.outDataQ := rfl
@[simp] theorem driven_resetSeen (ps : List Pins) : (driven ps s).resetSeen = s.resetSeen := rfl
@[simp] theorem driven_schedule (ps : List Pins) : (driven ps s).schedule = ps ++ s.schedule := rfl
@[simp] theorem driven_cycle (ps : List Pins) : (driven ps s).cycle = s.cycle := rfl
@[simp] theorem driven_taken (ps : List Pins) : (driven ps s).taken = s.taken := rfl
@[simp] theorem driven_received (ps : List Pins) : (driven ps s).received = s.received := rfl
@[simp] theorem driven_earlier (ps : List Pins) : (driven ps s).earlier = s.earlier := rfl
@[simp] theorem driven_nil : driven [] s = s := rfl

@[simp] theorem pins_driven_cons (p : Pins) (ps : List Pins) : (driven (p :: ps) s).pins = p := rfl

/-! ### All deliveries (R114) -/

@[simp] theorem delivered_nextCycle : s.nextCycle.delivered = s.delivered := rfl

/-- A reset edge delivers nothing and keeps every delivery. -/
@[simp] theorem delivered_resetEdge : s.resetEdge.delivered = s.delivered := List.append_nil _

@[simp] theorem delivered_driven (ps : List Pins) : (driven ps s).delivered = s.delivered := rfl

/-- A data edge adds this cycle's beat to the deliveries exactly where `fire_out` is 1. -/
theorem delivered_dataEdge :
    (s.dataEdge o).delivered = if s.fireOut then s.delivered ++ [s.outData] else s.delivered := by
  simp only [State.delivered, dataEdge_earlier, dataEdge_received, State.nextReceived]
  split <;> simp

/-! ### The waiting beat (R24) -/

variable {s}

theorem waiting_of_valid (h : s.outValidQ = true) : waiting s = [s.outDataQ] := by simp [waiting, h]

theorem waiting_of_empty (h : s.outValidQ = false) : waiting s = [] := by simp [waiting, h]

@[simp] theorem waiting_resetEdge : waiting s.resetEdge = [] := rfl

@[simp] theorem waiting_driven (ps : List Pins) : waiting (driven ps s) = waiting s := rfl

/-- The pins depend on the host's fields only. -/
theorem pins_congr {s t : State} (h : t.schedule = s.schedule) (hc : t.cycle = s.cycle) : t.pins = s.pins := by
  simp only [State.pins, h, hc]

end Sys2Proof.Machine
end

