-- ==== Sys2Proof/Laws/Ops.lean ====
section
/-! SUPPORT. What a clock edge can do, once, and the next values of `dataEdge` by case (R113). -/

namespace Sys2Proof.Machine

variable {s t : State} {o : Option Offer}

theorem clockEdge_of_rst (h : s.pins.rst = true) : clockEdge o s = .next s.resetEdge := by
  simp only [clockEdge, h, if_true]

theorem clockEdge_of_run (h : s.pins.rst = false) (hs : s.resetSeen = true) :
    clockEdge o s = .next (s.dataEdge o) := by
  simp only [clockEdge, h, hs, Bool.false_eq_true, if_false, if_true]

theorem clockEdge_of_powerOn (h : s.pins.rst = false) (hs : s.resetSeen = false) :
    clockEdge o s = .refused .beforeFirstReset := by
  simp only [clockEdge, h, hs, Bool.false_eq_true, if_false]

/-- Everything a clock edge can do: a reset edge, an edge by R113 once reset has been seen, or the refusal. -/
theorem clockEdge_cases (o : Option Offer) (s : State) :
    (s.pins.rst = true ∧ clockEdge o s = .next s.resetEdge) ∨
    (s.pins.rst = false ∧ s.resetSeen = true ∧ clockEdge o s = .next (s.dataEdge o)) ∨
    (s.pins.rst = false ∧ s.resetSeen = false ∧ clockEdge o s = .refused .beforeFirstReset) := by
  cases h : s.pins.rst with
  | true => exact .inl ⟨rfl, clockEdge_of_rst h⟩
  | false =>
    cases hs : s.resetSeen with
    | true => exact .inr (.inl ⟨rfl, rfl, clockEdge_of_run h hs⟩)
    | false => exact .inr (.inr ⟨rfl, rfl, clockEdge_of_powerOn h hs⟩)

/-- If a clock edge answers a next state, it is the reset edge's or the data edge's. -/
theorem clockEdge_next (h : clockEdge o s = .next t) :
    (s.pins.rst = true ∧ t = s.resetEdge) ∨
    (s.pins.rst = false ∧ s.resetSeen = true ∧ t = s.dataEdge o) := by
  rcases clockEdge_cases o s with ⟨hr, he⟩ | ⟨hr, hs, he⟩ | ⟨_, _, he⟩ <;> rw [he] at h
  · exact .inl ⟨hr, by injection h with h; exact h.symm⟩
  · exact .inr ⟨hr, hs, by injection h with h; exact h.symm⟩
  · cases h

/-- A clock edge never faults (R130). -/
theorem clockEdge_ne_fault (f : Fault) : clockEdge o s ≠ .fault f := nomatch f

/-! ### The handshake in a cycle with `rst` = 0 -/

theorem inReady_of_run (h : s.pins.rst = false) : s.inReady = (!s.outValidQ || s.pins.outReady) := by
  simp [State.inReady, h]

theorem fireOut_of_run (h : s.pins.rst = false) : s.fireOut = (s.outValidQ && s.pins.outReady) := by
  simp [State.fireOut, State.outValid, h]

@[simp] theorem firesIn_true : s.firesIn true = s.inReady := by simp [State.firesIn]

/-- A waiting beat leaves at an edge at which a beat is taken (R110, R111). -/
theorem fireOut_of_inReady (h : s.pins.rst = false) (hr : s.inReady = true) : s.fireOut = s.outValidQ := by
  rw [inReady_of_run h] at hr
  rw [fireOut_of_run h]
  cases hv : s.outValidQ <;> simp_all

/-! ### The next values of a data edge -/

@[simp] theorem loads_none : s.loads none = none := rfl

theorem loads_fire {b : Instr} {l : Option OutBeat} (h : s.inReady = true) : s.loads (some ⟨b, l⟩) = l := by
  simp [State.loads, h]

theorem loads_held {b : Instr} {l : Option OutBeat} (h : s.inReady = false) : s.loads (some ⟨b, l⟩) = none := by
  simp [State.loads, h]

theorem nextOutValidQ_of_loads {d : OutBeat} (h : s.loads o = some d) : s.nextOutValidQ o = true := by
  simp [State.nextOutValidQ, h]

theorem nextOutDataQ_of_loads {d : OutBeat} (h : s.loads o = some d) : s.nextOutDataQ o = d := by
  simp [State.nextOutDataQ, h]

theorem nextOutValidQ_of_no_load (h : s.loads o = none) :
    s.nextOutValidQ o = if s.fireOut then false else s.outValidQ := by
  simp [State.nextOutValidQ, h]

theorem nextOutDataQ_of_no_load (h : s.loads o = none) : s.nextOutDataQ o = s.outDataQ := by
  simp [State.nextOutDataQ, h]

@[simp] theorem nextTaken_none : s.nextTaken none = s.taken := rfl

theorem nextTaken_fire {b : Instr} {l : Option OutBeat} (h : s.inReady = true) :
    s.nextTaken (some ⟨b, l⟩) = s.taken ++ [b] := by
  simp [State.nextTaken, h]

theorem nextTaken_held {b : Instr} {l : Option OutBeat} (h : s.inReady = false) :
    s.nextTaken (some ⟨b, l⟩) = s.taken := by
  simp [State.nextTaken, h]

theorem nextReceived_of_fireOut (h : s.fireOut = true) : s.nextReceived = s.received ++ [s.outDataQ] := by
  simp [State.nextReceived, State.outData, h]

theorem nextReceived_of_no_fireOut (h : s.fireOut = false) : s.nextReceived = s.received := by
  simp [State.nextReceived, h]

end Sys2Proof.Machine
end

