-- ==== Sys2Proof/Laws/PerInstr.lean ====
section
/-! SUPPORT. The statements made for each operation, as syntax: its beat word lies in its row of the operation map. -/

namespace Sys2Proof.Laws

/-- The row of the operation map by mask and match (R63): every row's mask is 0x3000000. -/
def tableMatch : Instr → BeatWord
  | .enc3 _ _ _ => 0x3000000
  | .enc2 _ _ _ => 0x2000000
  | .enc1 _ _ => 0x1000000
  | .nop _ => 0x0000000

/-- The masked bits of a word are its length field at bits 25:24. -/
theorem and_mask_eq (w : BeatWord) : w &&& 0x3000000 = beatWord (lenOf w) 0 := by
  apply BitVec.eq_of_getLsbD_eq; intro i hi
  simp only [beatWord, lenOf, BitVec.getLsbD_append, BitVec.getLsbD_extractLsb', BitVec.getLsbD_and]
  interval_cases i <;> simp

/-- The word of the operation lies in its row: `W & mask == match` (R63). -/
def TableRow.Statement (i : Instr) : Prop := encode i &&& 0x3000000 = tableMatch i

theorem TableRow.enc3 (a b c : Byte) : TableRow.Statement (.enc3 a b c) := by
  simp only [TableRow.Statement, and_mask_eq, lenOf_encode]; rfl

theorem TableRow.enc2 (a b : Byte) (ignored : BitVec 8) : TableRow.Statement (.enc2 a b ignored) := by
  simp only [TableRow.Statement, and_mask_eq, lenOf_encode]; rfl

theorem TableRow.enc1 (a : Byte) (ignored : BitVec 16) : TableRow.Statement (.enc1 a ignored) := by
  simp only [TableRow.Statement, and_mask_eq, lenOf_encode]; rfl

theorem TableRow.nop (ignored : BitVec 24) : TableRow.Statement (.nop ignored) := by
  simp only [TableRow.Statement, and_mask_eq, lenOf_encode]; rfl

end Sys2Proof.Laws
end

