-- ==== Sys2Proof/Laws/Stream.lean ====
section
/-! SUPPORT. The output beat of each operation and of a sequence of beats (R80, R117). -/

namespace Sys2Proof.Machine

@[simp] theorem beatOutput_enc3 (a b c : Byte) :
    beatOutput (.enc3 a b c) = some (encodeGroup 3 (a ++ b ++ c : BitVec 24)) := by
  simp only [beatOutput, Instr.isEmpty, lenOf_encode, dataOf_encode, Bool.false_eq_true, if_false]

@[simp] theorem beatOutput_enc2 (a b : Byte) (x : BitVec 8) :
    beatOutput (.enc2 a b x) = some (encodeGroup 2 (a ++ b ++ x : BitVec 24)) := by
  simp only [beatOutput, Instr.isEmpty, lenOf_encode, dataOf_encode, Bool.false_eq_true, if_false]

@[simp] theorem beatOutput_enc1 (a : Byte) (x : BitVec 16) :
    beatOutput (.enc1 a x) = some (encodeGroup 1 (a ++ x : BitVec 24)) := by
  simp only [beatOutput, Instr.isEmpty, lenOf_encode, dataOf_encode, Bool.false_eq_true, if_false]

@[simp] theorem beatOutput_nop (x : BitVec 24) : beatOutput (.nop x) = none := rfl

@[simp] theorem streamOutput_nil : streamOutput [] = [] := rfl

@[simp] theorem streamOutput_append (xs ys : List Instr) :
    streamOutput (xs ++ ys) = streamOutput xs ++ streamOutput ys := by
  simp [streamOutput, List.filterMap_append]

theorem streamOutput_singleton (i : Instr) : streamOutput [i] = (beatOutput i).toList := by
  cases h : beatOutput i <;> simp [streamOutput, h]

@[simp] theorem joinBeats_nil : joinBeats [] = [] := rfl

@[simp] theorem joinBeats_append (xs ys : List OutBeat) : joinBeats (xs ++ ys) = joinBeats xs ++ joinBeats ys := by
  simp [joinBeats]

theorem joinBeats_length (outs : List OutBeat) : (joinBeats outs).length = 4 * outs.length := by
  induction outs with
  | nil => rfl
  | cons o os ih => simp [joinBeats, chars] at ih ⊢; omega

end Sys2Proof.Machine
end

