-- ==== Sys2Proof/Laws/Step.lean ====
section
/-! SUPPORT. An operation, and a step, as one clock edge with the offered beat's `ENCODE_GROUP` value. -/

namespace Sys2Proof.Machine

/-- What a beat offers to the clock edge: itself, and its output beat as the value to load (R113). -/
def offerOf (i : Instr) : Offer := ⟨i, beatOutput i⟩

@[simp] theorem offerOf_beat (i : Instr) : (offerOf i).beat = i := rfl
@[simp] theorem offerOf_load (i : Instr) : (offerOf i).load = beatOutput i := rfl

/-- Every operation is the clock edge with its beat on the input port. -/
theorem exec_eq_clockEdge (i : Instr) (s : State) : exec i s = clockEdge (some (offerOf i)) s := by
  cases i with
  | enc3 a b c => simp only [exec, execEnc3, offerOf, beatOutput_enc3]
  | enc2 a b x => simp only [exec, execEnc2, offerOf, beatOutput_enc2]
  | enc1 a x => simp only [exec, execEnc1, offerOf, beatOutput_enc1]
  | nop x => simp only [exec, execNop, offerOf, beatOutput_nop]

/-- A step is the clock edge with the offered beat, if any. -/
theorem step_eq_clockEdge (s : State) : step s = clockEdge (s.offered.map offerOf) s := by
  cases h : s.offered with
  | none => simp [step, h, idleEdge]
  | some i => simp [step, h, exec_eq_clockEdge]

theorem offered_eq_none_iff (s : State) : s.offered = none ↔ s.pins.inValid = false := by
  simp [State.offered]

/-! ### A data edge with an offered beat -/

variable {s : State} {i : Instr}

theorem loads_offerOf_fire (h : s.inReady = true) : s.loads (some (offerOf i)) = beatOutput i := loads_fire h

theorem loads_offerOf_held (h : s.inReady = false) : s.loads (some (offerOf i)) = none := loads_held h

theorem nextTaken_offerOf_fire (h : s.inReady = true) : s.nextTaken (some (offerOf i)) = s.taken ++ [i] :=
  nextTaken_fire h

theorem nextTaken_offerOf_held (h : s.inReady = false) : s.nextTaken (some (offerOf i)) = s.taken := nextTaken_held h

end Sys2Proof.Machine
end

