-- ==== Sys2Proof/Laws/Run.lean ====
section
/-! SUPPORT. Runs under given pins, one edge at a time. -/

namespace Sys2Proof.Machine

@[simp] theorem runPins_nil (s : State) : runPins [] s = .next s := rfl

/-- The first edge of a run answers a next state. -/
theorem runPins_cons_of_next {p : Pins} {ps : List Pins} {s t : State}
    (h : step (driven (p :: ps) s) = .next (driven ps t)) : runPins (p :: ps) s = runPins ps t := by
  have h' : core.step (driven (p :: ps) s) = .next (driven ps t) := h
  simp only [runPins, List.length_cons, Host.Core.run]
  rw [h']

/-- The first edge of a run refuses. -/
theorem runPins_cons_of_refused {p : Pins} {ps : List Pins} {s : State} {r : Refusal}
    (h : step (driven (p :: ps) s) = .refused r) : runPins (p :: ps) s = .refused r := by
  have h' : core.step (driven (p :: ps) s) = .refused r := h
  simp only [runPins, List.length_cons, Host.Core.run]
  rw [h']
  rfl

/-- A reset cycle, then the rest. -/
theorem runPins_cons_of_rst {p : Pins} (h : p.rst = true) (ps : List Pins) (s : State) :
    runPins (p :: ps) s = runPins ps ((driven [p] s).resetEdge) := by
  apply runPins_cons_of_next
  rw [step_eq_clockEdge, clockEdge_of_rst (s := driven (p :: ps) s) h]; rfl

/-- A cycle with `rst` = 0 past the first reset edge, then the rest. -/
theorem runPins_cons_of_run {p : Pins} (h : p.rst = false) (ps : List Pins) {s : State} (hs : s.resetSeen = true) :
    runPins (p :: ps) s = runPins ps ((driven [p] s).dataEdge ((driven [p] s).offered.map offerOf)) := by
  apply runPins_cons_of_next
  rw [step_eq_clockEdge, clockEdge_of_run (s := driven (p :: ps) s) h hs]; rfl

/-- A run in two parts. -/
theorem runPins_append (ps qs : List Pins) (s t : State) (h : runPins ps s = .next t) :
    runPins (ps ++ qs) s = runPins qs t := by
  induction ps generalizing s with
  | nil => simp only [runPins_nil] at h; injection h with h; subst h; rfl
  | cons p ps ih =>
    cases hr : p.rst with
    | true =>
      rw [runPins_cons_of_rst hr] at h
      rw [List.cons_append, runPins_cons_of_rst hr]; exact ih _ h
    | false =>
      cases hs : s.resetSeen with
      | true =>
        rw [runPins_cons_of_run hr _ hs] at h
        rw [List.cons_append, runPins_cons_of_run hr _ hs]; exact ih _ h
      | false =>
        exfalso
        rw [runPins_cons_of_refused (r := .beforeFirstReset)] at h
        · cases h
        · rw [step_eq_clockEdge, clockEdge_of_powerOn (s := driven (p :: ps) s) hr hs]

/-- The operation the pins of `pinsOffer` put on the port. -/
theorem offered_offer (i : Instr) (hd : decode (encode i) = i) (r : Bool) (ps : List Pins) (s : State) :
    (driven (pinsOffer (encode i) r :: ps) s).offered = some i := by
  simp only [State.offered, pins_driven_cons, pinsOffer, beatWord_lenOf_dataOf, if_true, hd]

end Sys2Proof.Machine
end

