-- ==== Sys2Proof/Tests/Slice0.lean ====
section
/-! SUPPORT. The model's own tests, each on one step or one value, with expected results from spec/95_test_vectors.md, and
the witnesses of the obligations' hypotheses. -/

namespace Sys2Proof.Tests

open Sys2Proof Sys2Proof.Machine

/-- A state past reset with the given register contents and current pins. -/
def stage (valid : Bool) (data : OutBeat) (p : Pins) : State :=
  { State.reset with outValidQ := valid, outDataQ := data, schedule := [p] }

/-- The next state, if there is one. -/
def nextOf : Host.Outcome State Fault Refusal → Option State
  | .next t => some t
  | .fault _ => none
  | .refused _ => none

/-- The registers after an outcome. -/
def regsOf (o : Host.Outcome State Fault Refusal) : Option (Bool × OutBeat) :=
  (nextOf o).map fun t => (t.outValidQ, t.outDataQ)

/-- A next state is some state. -/
theorem exists_next {o : Host.Outcome State Fault Refusal} (h : (nextOf o).isSome = true) : ∃ t, o = .next t := by
  cases o with
  | next t => exact ⟨t, rfl⟩
  | fault f => exact nomatch f
  | refused r => cases h

/-! ### WellFormed: a term each check refuses. Every operation is well formed (R64), so that check refuses none. -/

theorem test_word_too_wide : isBeatWord 0x4000000 = false := by decide
theorem test_dirty_enc2_is_not_plain : (Instr.enc2 0x4D 0x61 0xFF).isPlain = false := by decide
theorem test_dirty_enc1_is_not_plain : (Instr.enc1 0x4D 0xFFFF).isPlain = false := by decide
theorem test_dirty_nop_is_not_plain : (Instr.nop 0xFFFFFF).isPlain = false := by decide
theorem test_nop_among_framed_beats : framedBeats [.nop 0] = false := by decide
/-- P6 of 95_test_vectors.md: two ENC1 beats break the framing. -/
theorem test_short_beat_in_the_middle : wellFramed [.enc1 0x4D 0, .nop 0, .enc1 0x4D 0] = false := by decide
theorem test_framed_with_nops : wellFramed [.nop 0, .enc3 1 2 3, .nop 0, .enc1 4 0] = true := by decide

/-! ### Decode: words of R66 and 95_test_vectors.md 2.1 to 2.5, and the host's two entries -/

theorem test_decode_enc3 : decode 0b11010011010110000101101110#26 = .enc3 0x4D 0x61 0x6E := by decide
theorem test_decode_enc2_dirty : decode 0b10010011010110000111111111#26 = .enc2 0x4D 0x61 0xFF := by decide
theorem test_decode_enc1_dirty : decode 0b01010011010001001000110100#26 = .enc1 0x4D 0x1234 := by decide
theorem test_decode_nop : decode 0b00010011010110000101101110#26 = .nop 0x4D616E := by decide
theorem test_encode_enc3 : encode (.enc3 0x66 0x6F 0x6F) = 0x3666F6F := by decide
theorem test_encode_enc2 : encode (.enc2 0x62 0x61 0xFF) = 0x26261FF := by decide
theorem test_encode_enc1 : encode (.enc1 0x21 0) = 0x1210000 := by decide
theorem test_encode_nop : encode (.nop 0xFFFFFF) = 0x0FFFFFF := by decide
theorem test_table_word : decodeTableWord 32 0x24D6100 = some (.enc2 0x4D 0x61 0x00) := by decide
theorem test_table_word_too_wide : decodeTableWord 32 0x4000000 = none := by decide
theorem test_placed_word_runs_after_reset :
    regsOf (step (State.reset.withFetchWord 32 0x34D616E)) = some (true, 0x54574675) := by decide
theorem test_placed_nop_runs_after_reset : (nextOf (step (State.reset.withFetchWord 32 0))).isSome = true := by decide

/-! ### The operations: one step each, expected `out_data` from 95_test_vectors.md 2.2 to 2.5 -/

theorem test_enc3_slots_in_order :
    regsOf (exec (.enc3 0x10 0x83 0x10) (stage false 0 (pinsIdle false))) = some (true, 0x45494D51) := by decide
theorem test_enc3_replaces_the_drained_beat :
    regsOf (exec (.enc3 0xFB 0xEF 0xBE) (stage true 0x54513D3D (pinsIdle true))) = some (true, 0x2B2B2B2B) := by decide
theorem test_enc2_masks_the_dirty_lane :
    regsOf (exec (.enc2 0x00 0x0F 0xFF) (stage false 0 (pinsIdle false))) = some (true, 0x4141383D) := by decide
theorem test_enc2_of_ones :
    regsOf (exec (.enc2 0xFF 0xFF 0x00) (stage false 0 (pinsIdle true))) = some (true, 0x2F2F383D) := by decide
theorem test_enc1_is_not_sign_extended :
    regsOf (exec (.enc1 0x80 0x0000) (stage false 0 (pinsIdle false))) = some (true, 0x67413D3D) := by decide
theorem test_enc1_masks_the_dirty_lanes :
    regsOf (exec (.enc1 0x4D 0xFFFF) (stage false 0 (pinsIdle false))) = some (true, 0x54513D3D) := by decide
theorem test_nop_lets_the_waiting_beat_go :
    regsOf (exec (.nop 0) (stage true 0x5A6D3976 (pinsIdle true))) = some (false, 0x5A6D3976) := by decide
theorem test_nop_waits_behind_a_held_beat :
    regsOf (exec (.nop 0x4D616E) (stage true 0x5A6D3976 (pinsIdle false))) = some (true, 0x5A6D3976) := by decide

/-! ### The clock step: rows of 95_test_vectors.md 2.7 and steps of its programs -/

/-- P4 cycle 2: a reset edge discards the waiting beat and takes nothing. -/
theorem test_reset_discards_the_waiting_beat :
    (nextOf (step (stage true 0x59574A6A { pinsOffer 0x3616263 true with rst := true }))).map
      (fun t => (t.outValidQ, t.outDataQ, t.taken, t.received)) = some (false, 0x59574A6A, [], []) := by decide
/-- P5 cycle 0: power-on with a 1 in `out_valid_q`; the reset edge keeps the data. -/
theorem test_dirty_power_on :
    regsOf (step { State.powerOn true 0xDEADBEEF with schedule := [pinsReset] }) = some (false, 0xDEADBEEF) := by decide
/-- R152: no rule before the first reset edge. -/
theorem test_no_step_before_reset :
    nextOf (step { State.powerOn true 0xDEADBEEF with schedule := [pinsIdle true] }) = none := by decide
/-- P1 cycle 2: both fires at one edge. -/
theorem test_both_fire :
    (nextOf (step (stage true 0x54574675 (pinsOffer 0x14D0000 true)))).map
      (fun t => (t.outValidQ, t.outDataQ, t.received)) = some (true, 0x54513D3D, [0x54574675]) := by decide
/-- P3 cycle 2: a NOP offered under back-pressure is not taken. -/
theorem test_hold_takes_nothing :
    (nextOf (step (stage true 0x5A6D3976 (pinsOffer 0 false)))).map (fun t => (t.outValidQ, t.taken, t.received)) =
      some (true, [], []) := by decide

/-! ### The host's framing: 95_test_vectors.md section 1 and 2.6 -/

theorem test_encode_hello :
    encodeBytes [0x48, 0x65, 0x6C, 0x6C, 0x6F, 0x2C, 0x20, 0x57, 0x6F, 0x72, 0x6C, 0x64, 0x21] =
      [0x53, 0x47, 0x56, 0x73, 0x62, 0x47, 0x38, 0x73, 0x49, 0x46, 0x64, 0x76, 0x63, 0x6D, 0x78, 0x6B,
       0x49, 0x51, 0x3D, 0x3D] := by decide
/-- "AQIDBAU=" (2.6, n = 5), by the arithmetic definition. -/
theorem test_base64_five_bytes : base64 [1, 2, 3, 4, 5] = [0x41, 0x51, 0x49, 0x44, 0x42, 0x41, 0x55, 0x3D] := by decide
/-- "TQ==TQ==" (P6): the broken framing's string. -/
theorem test_broken_framing_string :
    joinBeats (streamOutput [.enc1 0x4D 0, .enc1 0x4D 0]) = [0x54, 0x51, 0x3D, 0x3D, 0x54, 0x51, 0x3D, 0x3D] := by decide

/-! ### Witnesses: concrete values that meet each obligation's hypotheses together -/

/-- A state in which an input beat fires into an empty register. -/
def ready : State := stage false 0xDEADBEEF (pinsIdle false)

/-- A state in which an input beat fires while the waiting one leaves. -/
def draining : State := stage true 0x54513D3D (pinsOffer 0x34D616E true)

/-- A state held by the consumer. -/
def held : State := stage true 0x54513D3D (pinsOffer 0x34D616E false)

/-- A state in a reset cycle. -/
def inReset : State := stage true 0x54513D3D { pinsOffer 0x34D616E true with rst := true }

/-- A power-on state in a cycle with `rst` = 0. -/
def beforeReset : State := { State.powerOn true 0xDEADBEEF with schedule := [pinsIdle true] }

theorem witness_DecodeOfEncodeIsIdentity : (Instr.enc3 0xFF 0x00 0x80).wellFormed = true := rfl

theorem witness_OperationMapCoversEveryWordOnce :
    (0x3FFFFFF : BeatWord) &&& 0x3000000 = 0x3000000 ∧ (0x2FFFFFF : BeatWord) &&& 0x3000000 = 0x2000000 ∧
    (0x1FFFFFF : BeatWord) &&& 0x3000000 = 0x1000000 ∧ (0x0FFFFFF : BeatWord) &&& 0x3000000 = 0x0000000 ∧
    (0x3FFFFFF : BeatWord) &&& 0x3000000 = (0x3000000 : BeatWord) &&& 0x3000000 := by decide

/-- Each length from 1 to 3 meets `len ≠ 0` (packing, padding count, output bytes). -/
theorem witness_nonEmptyLengths : (1 : Len) ≠ 0 ∧ (2 : Len) ≠ 0 ∧ (3 : Len) ≠ 0 := by decide

/-- The firing hypotheses of the four operations: into an empty register, and into one being drained. -/
theorem witness_Firing :
    (ready.resetSeen = true ∧ ready.pins.rst = false ∧ ready.inReady = true) ∧
    (draining.resetSeen = true ∧ draining.pins.rst = false ∧ draining.inReady = true ∧ draining.outValidQ = true) := by
  decide

/-- A string over the alphabet (ENC3's bijection), and each value of `a[1:0]` (ENC1). -/
theorem witness_Enc3AndEnc1Clauses :
    (∀ k : Fin 4, slotChar k 0x2B2F4139 ∈ lutTable) ∧
    (0xFC : Byte).extractLsb' 0 2 = 0b00#2 ∧ (0xFD : Byte).extractLsb' 0 2 = 0b01#2 ∧
    (0xFE : Byte).extractLsb' 0 2 = 0b10#2 ∧ (0xFF : Byte).extractLsb' 0 2 = 0b11#2 := by decide

/-- Data fields that differ in ignored lanes only, and each operation answering a next state. -/
theorem witness_IgnoredLanesHaveNoEffect :
    (laneA 0x4D61FF = laneA 0x4D6100 ∧ (bPresent 2 = true → laneB 0x4D61FF = laneB 0x4D6100) ∧
      (cPresent 2 = true → laneC 0x4D61FF = laneC 0x4D6100)) ∧
    (∃ t, exec (.enc2 0x4D 0x61 0xFF) ready = .next t) ∧ (∃ t, exec (.enc1 0x4D 0xFFFF) draining = .next t) ∧
    (∃ t, exec (.nop 0xFFFFFF) held = .next t) :=
  ⟨by decide, exists_next (by decide), exists_next (by decide), exists_next (by decide)⟩

theorem witness_SameBeatSameOutputInAnyState :
    (Instr.enc1 0x4D 0).isEmpty = false ∧ (Instr.enc1 0x4D 0).plain = (Instr.enc1 0x4D 0xFFFF).plain ∧
    ready.resetSeen = true ∧ ready.pins.rst = false ∧ ready.inReady = true ∧
    draining.resetSeen = true ∧ draining.pins.rst = false ∧ draining.inReady = true := by decide

/-- The frames: firing, held and in reset. -/
theorem witness_EncodingBeatsFrame :
    (Instr.enc3 1 2 3).isEmpty = false ∧ (∃ t, exec (.enc3 1 2 3) draining = .next t) ∧
    (held.inReady = false ∧ held.pins.rst = false ∧ ∃ t, exec (.enc2 1 2 3) held = .next t) ∧
    (inReset.inReady = false ∧ ∃ t, exec (.enc1 1 2) inReset = .next t) :=
  ⟨rfl, exists_next (by decide), ⟨by decide, by decide, exists_next (by decide)⟩, by decide, exists_next (by decide)⟩

theorem witness_NopFrame :
    (∃ t, exec (.nop 7) draining = .next t) ∧ (∃ t, exec (.nop 7) held = .next t) ∧
    (regsOf (exec (.nop 7) held) = some (true, held.outDataQ) ∧ held.inReady = false ∧ held.pins.rst = false) ∧
    (∃ t, exec (.nop 7) inReset = .next t) :=
  ⟨exists_next (by decide), exists_next (by decide), by decide, exists_next (by decide)⟩

/-- A reset edge after a delivery: the consumer keeps it, and the waiting beat is never delivered (R114, R154). -/
theorem test_deliveries_outlive_a_reset :
    (nextOf (step { inReset with received := [0x59574A6A], earlier := [0x54574675] })).map
      (fun t => (t.delivered, t.received)) = some ([0x54574675, 0x59574A6A], []) := by decide

/-- Two states with equal `rst`, registers and `out_ready` but other data pins (the port equations). -/
theorem witness_PortEquations :
    let other : State := stage true 0x54513D3D (pinsOffer 0x1FF0000 true)
    RulesHold draining ∧ RulesHold other ∧ RulesHold inReset ∧ other.pins.rst = draining.pins.rst ∧
    other.outValidQ = draining.outValidQ ∧ other.outDataQ = draining.outDataQ ∧
    other.pins.outReady = draining.pins.outReady ∧ other.pins ≠ draining.pins ∧ draining.outValid = true := by decide

theorem witness_FiresNeedBothSidesAndIdleDataIsIgnored :
    RulesHold draining ∧ RulesHold held ∧ RulesHold inReset ∧ (pinsIdle true).inValid = false := by decide

theorem witness_StepRunsTheOfferedBeat :
    draining.pins.inValid = true ∧ decode (beatWord draining.pins.inLen draining.pins.inData) = .enc3 0x4D 0x61 0x6E := by
  decide

/-- Past reset in each kind of cycle, and a reset cycle at power-on. -/
theorem witness_ClockEdgeUpdatesTheRegisters :
    (draining.resetSeen = true ∧ draining.pins.rst = false) ∧ (inReset.resetSeen = true ∧ inReset.pins.rst = true) ∧
    ({ beforeReset with schedule := [pinsReset] } : State).pins.rst = true := by decide

/-- A step that delivers and takes, one that does neither, and one in reset. -/
theorem witness_DeliveryAndTaking :
    (∃ t, step draining = .next t) ∧ draining.pins.rst = false ∧ draining.fireOut = true ∧ draining.fireIn = true ∧
    (∃ t, step held = .next t) ∧ held.pins.rst = false ∧ held.fireOut = false ∧ held.fireIn = false ∧
    (∃ t, step inReset = .next t) ∧ inReset.pins.rst = true ∧ ∃ t, core.run 1 draining = .next t :=
  ⟨exists_next (by decide), by decide, by decide, by decide, exists_next (by decide), by decide, by decide, by decide,
    exists_next (by decide), by decide, exists_next (o := core.run 1 draining) (by decide)⟩

theorem witness_WaitingBeatIsHeldUnderBackPressure :
    held.pins.rst = false ∧ held.outValidQ = true ∧ held.pins.outReady = false ∧ held.resetSeen = true ∧
    ∀ p ∈ [pinsOffer 0x34D616E false, pinsIdle false], p.rst = false ∧ p.outReady = false := by decide

theorem witness_FullThroughput :
    draining.resetSeen = true ∧ draining.pins.rst = false ∧ draining.outValidQ = true ∧ draining.pins.outReady = true ∧
    draining.offered = some (.enc3 0x4D 0x61 0x6E) ∧ (Instr.enc3 0x4D 0x61 0x6E).isEmpty = false := by decide

theorem witness_StageMapsEncodeGroupOverBeats :
    ready.resetSeen = true ∧ ready.outValidQ = false ∧ ready.taken = [] ∧ ready.received = [] ∧
    ∀ p ∈ [pinsOffer 0x34D616E false, pinsOffer 0 true, pinsIdle true], p.rst = false := by decide

/-- A state with a beat taken and waiting meets both invariants, and steps. -/
theorem witness_Invariants :
    let s : State := { stage true 0x54574675 (pinsOffer 0x14D0000 true) with taken := [.enc3 0x4D 0x61 0x6E] }
    StreamOrdered s ∧ OutputLegal s ∧ ∃ t, step s = .next t :=
  have legal : legalBeat 0x54574675 = true := by decide
  ⟨fun _ => by decide, And.intro nofun fun _ _ h => List.mem_singleton.mp h ▸ legal, exists_next (by decide)⟩

/-- All delivered, with a NOP among the beats and a dirty lane: "Ma" is `TWE=`. -/
theorem witness_HostObtainsStandardBase64 :
    let s : State :=
      { ready with taken := [.nop 5, .enc2 0x4D 0x61 0xFF], received := [0x5457453D] }
    StreamOrdered s ∧ s.resetSeen = true ∧ s.outValidQ = false ∧
    (s.taken.filter fun i => !i.isEmpty).map Instr.plain = frame [0x4D, 0x61] ∧ ready.received = [] :=
  ⟨fun _ => by decide, by decide⟩

theorem witness_FramingSplitsIntoGroupsOfThree :
    (frame [1, 2, 3, 4])[0]? = some (.enc3 1 2 3) ∧ (frame [1, 2, 3, 4])[1]? = some (.enc1 4 0) ∧
    (lenOf (encode (.enc3 1 2 3))).toNat = 3 ∧ [Instr.enc3 1 2 3] ++ [Instr.enc1 4 0] = frame [1, 2, 3, 4] := by decide

theorem witness_SplitsConcatenateAtMultiplesOfThree :
    ([1, 2, 3] : List Byte).length % 3 = 0 ∧ ([1] : List Byte).length % 3 ≠ 0 ∧ ([2] : List Byte) ≠ [] := by decide

theorem witness_BrokenFramingPadsMidString :
    (Instr.enc1 0x4D 0).isShort = true ∧ (Instr.enc1 0x4D 0).isEmpty = false ∧
    wellFramed [.enc3 1 2 3, .enc2 4 5 0xFF] = true := by decide

theorem witness_StageNeverStallsByItself :
    draining.resetSeen = true ∧ draining.pins.rst = false ∧ draining.pins.outReady = true ∧
    held.resetSeen = true ∧ held.outValidQ = true ∧
    (∀ q ∈ [pinsIdle false, pinsIdle false], q.rst = false ∧ q.outReady = false) ∧
    (pinsIdle true).rst = false ∧ (pinsIdle true).outReady = true := by decide

theorem witness_NothingEverFaults : draining.resetSeen = true := rfl

/-- A reset cycle with a beat waiting, one offered and `out_ready` = 1 (the three reset statements). -/
theorem witness_ResetCycle :
    inReset.pins.rst = true ∧ inReset.outValidQ = true ∧ inReset.pins.inValid = true ∧ inReset.pins.outReady = true ∧
    ∃ t, step inReset = .next t := ⟨by decide, by decide, by decide, by decide, exists_next (by decide)⟩

theorem witness_OneResetEdgeSuffices :
    beforeReset.resetSeen = false ∧ beforeReset.pins.rst = false ∧ [pinsReset, pinsReset] ≠ [] ∧
    ∀ p ∈ [pinsReset, pinsReset], p.rst = true := by decide

/-- Two states that differ in stale data only, each with a next state. -/
theorem witness_StaleDataIsNeverObserved :
    SameButStale ready { ready with outDataQ := 0 } ∧ ready.outDataQ ≠ 0 ∧ (∃ t, step ready = .next t) ∧
    ∃ t, core.run 1 ready = .next t :=
  ⟨⟨rfl, fun h => by cases h⟩, by decide, exists_next (by decide),
    exists_next (o := core.run 1 ready) (by decide)⟩

theorem witness_EncodingTwiceIsNotTheInput : ([0x4D] : List Byte) ≠ [] := by decide

/-- At power-on with 1 and with 0 in `out_valid_q`, in cycles with `rst` = 0. -/
theorem witness_PortValuesBeforeResetAreTheModelsOwn :
    beforeReset.resetSeen = false ∧ beforeReset.pins.rst = false ∧
    ({ beforeReset with outValidQ := false } : State).resetSeen = false := by decide

theorem witness_PlacedWordRunsNext : (0x3FFFFFF : Nat) < 2 ^ 26 := by decide

end Sys2Proof.Tests
end

section
/-! The family 10_state.md: the table, the state after reset, the reset edge, and the ports before the first one. -/

namespace Sys2Proof.Machine

/-! ### Laws -/

/-- Every entry of the table is a 7-bit US-ASCII code (R26). -/
theorem getLsbD_seven_of_mem_lutTable : ∀ ch ∈ lutTable, ch.getLsbD 7 = false := by decide

section Step

variable {s : State}

theorem outValid_of_run (h : s.pins.rst = false) : s.outValid = s.outValidQ := by
  simp [State.outValid, h]

/-- An empty register presents no beat, whatever the pins (R111). -/
theorem outBeat_of_empty (h : s.outValidQ = false) : s.outBeat = none := by
  simp [State.outBeat, State.outValid, h]

theorem step_of_rst (h : s.pins.rst = true) : step s = .next s.resetEdge := by
  rw [step_eq_clockEdge, clockEdge_of_rst h]

theorem step_of_powerOn (h : s.pins.rst = false) (hs : s.resetSeen = false) :
    step s = .refused .beforeFirstReset := by
  rw [step_eq_clockEdge, clockEdge_of_powerOn h hs]

/-- A refused edge delivers nothing, and no edge follows it. -/
theorem deliveries_of_refused {r : Refusal} (h : step s = .refused r) (n : Nat) : deliveries n s = [] := by
  cases n with
  | zero => rfl
  | succ n => simp only [deliveries, h]

/-- The reset edge gives the reset state but for the data register, the host's coming pins and the deliveries. -/
theorem resetEdge_eq_reset (s : State) :
    s.resetEdge = { State.reset with
      outDataQ := s.outDataQ, schedule := s.schedule.tail, cycle := s.cycle + 1, earlier := s.delivered } := rfl

end Step

/-! ### The obligations -/

/-- Settles O45: a step with `rst` = 1 is the reset edge, which discards the waiting beat and keeps the deliveries. -/
theorem resetEdgeGivesTheResetState : Obligations.ResetEdgeGivesTheResetState := by
  intro s t hrst hstep
  have ht : s.resetEdge = t := by
    rw [step_of_rst hrst] at hstep
    exact Host.Outcome.next.inj hstep
  subst ht
  exact ⟨resetEdge_eq_reset s, delivered_resetEdge s⟩

/-- Settles O1: the closed form and the distinctness are the table's laws, and bit 7 is a fact about each entry. -/
theorem lutIsTheStandardAlphabet : Obligations.LutIsTheStandardAlphabet :=
  ⟨lutTable_length, lutTable_nodup, rfl, pad_not_mem_lutTable, lut_eq_base64Char,
    fun i => getLsbD_seven_of_mem_lutTable (lut i) (lut_mem i)⟩

/-- Settles O2: the register is empty, so no beat is presented or waiting, whatever the free pins of the cycle. -/
theorem resetStateIsEmpty : Obligations.ResetStateIsEmpty := by
  have hv : State.reset.outValidQ = false := rfl
  exact ⟨hv, outBeat_of_empty hv, waiting_of_empty hv, rfl, rfl, rfl, rfl⟩

/-- Settles O48: the handshake equations with `rst` = 0, and the refusal of the edge, which delivers nothing. -/
theorem portValuesBeforeResetAreTheModelsOwn : Obligations.PortValuesBeforeResetAreTheModelsOwn := by
  intro s hseen hrst
  have hstep : step s = .refused .beforeFirstReset := step_of_powerOn hrst hseen
  exact ⟨inReady_of_run hrst, outValid_of_run hrst, rfl, rfl, hstep, deliveries_of_refused hstep 1⟩

end Sys2Proof.Machine
end

section
/-! The family 20_memory.md: the one waiting beat, in order (R49), the beats taken (R46), and what an encoding beat leaves
unchanged (R40, R47). -/

namespace Sys2Proof.Machine

/-! ### Laws -/

section Handshake

variable {s t : State} {o : Option Offer}

/-- In a reset cycle no input beat fires (R151). -/
theorem fireIn_of_rst (h : s.pins.rst = true) : s.fireIn = false := by
  simp [State.fireIn, State.firesIn, State.inReady, h]

/-- In a reset cycle no output beat fires (R151). -/
theorem fireOut_of_rst (h : s.pins.rst = true) : s.fireOut = false := by
  simp [State.fireOut, State.outValid, h]

/-- Only a waiting beat is delivered (R111, R112). -/
theorem outValidQ_of_fireOut (h : s.fireOut = true) : s.outValidQ = true := by
  simp only [State.fireOut, State.outValid, Bool.and_eq_true] at h
  exact h.1.1

/-- A stage that is not ready in a running cycle is held by its consumer, so it delivers nothing (R110, R115). -/
theorem fireOut_of_not_inReady (h : s.pins.rst = false) (hr : s.inReady = false) : s.fireOut = false := by
  rw [inReady_of_run h, Bool.or_eq_false_iff] at hr
  rw [fireOut_of_run h, hr.2, Bool.and_false]

/-- Nothing is loaded unless the stage is ready (R113). -/
theorem inReady_of_loads {d : OutBeat} (h : s.loads o = some d) : s.inReady = true := by
  cases hr : s.inReady with
  | true => rfl
  | false => cases o <;> simp [State.loads, hr] at h

/-- A stage that is not ready loads nothing (R113). -/
theorem loads_of_not_inReady (hr : s.inReady = false) : s.loads o = none := by
  cases o with
  | none => rfl
  | some b => exact loads_held hr

/-- A held register keeps its valid bit (R113, R115). -/
theorem nextOutValidQ_of_not_inReady (h : s.pins.rst = false) (hr : s.inReady = false) :
    s.nextOutValidQ o = s.outValidQ := by
  simp [nextOutValidQ_of_no_load (loads_of_not_inReady hr), fireOut_of_not_inReady h hr]

/-- Any edge that answers a next state adds this cycle's beat to the deliveries exactly where `fire_out` is 1 (R114). -/
theorem delivered_of_clockEdge (h : clockEdge o s = .next t) :
    t.delivered = if s.fireOut then s.delivered ++ [s.outData] else s.delivered := by
  rcases clockEdge_next h with ⟨hrst, rfl⟩ | ⟨_, _, rfl⟩
  · simp [fireOut_of_rst hrst]
  · exact delivered_dataEdge s o

/-- If a step answers a next state, it is the reset edge's or the data edge's with the offered beat. -/
theorem step_next (h : step s = .next t) :
    (s.pins.rst = true ∧ t = s.resetEdge) ∨
    (s.pins.rst = false ∧ s.resetSeen = true ∧ t = s.dataEdge (s.offered.map offerOf)) := by
  rw [step_eq_clockEdge] at h
  exact clockEdge_next h

end Handshake

section Taking

variable (s : State)

/-- An offered beat is taken exactly where the stage is ready (R112). -/
theorem nextTaken_offerOf (i : Instr) :
    s.nextTaken (some (offerOf i)) = if s.inReady then s.taken ++ [i] else s.taken := by
  cases hr : s.inReady with
  | true => simp [nextTaken_offerOf_fire hr]
  | false => simp [nextTaken_offerOf_held hr]

/-- The beat on the input port is taken exactly where `fire_in` is 1 (R112). -/
theorem nextTaken_offered :
    s.nextTaken (s.offered.map offerOf) =
      if s.fireIn then s.taken ++ [decode (beatWord s.pins.inLen s.pins.inData)] else s.taken := by
  cases hv : s.pins.inValid with
  | true => simp [State.offered, State.fireIn, hv, nextTaken_offerOf]
  | false => simp [State.offered, State.fireIn, State.firesIn, hv]

end Taking

section Order

variable {s : State}

/-- What an edge loads is what the beats it takes add to the encodings (R80, R113). -/
theorem streamOutput_nextTaken (s : State) (offered : Option Instr) :
    streamOutput (s.nextTaken (offered.map offerOf)) =
      streamOutput s.taken ++ (s.loads (offered.map offerOf)).toList := by
  cases offered with
  | none => simp
  | some i =>
    rw [Option.map_some]
    cases hr : s.inReady with
    | true =>
      rw [nextTaken_offerOf_fire hr, loads_offerOf_fire hr, streamOutput_append, streamOutput_singleton]
    | false => rw [nextTaken_offerOf_held hr, loads_offerOf_held hr, Option.toList_none, List.append_nil]

/-- Delivery moves the waiting beat to the end of the beats received, and loses none (R114). -/
theorem nextReceived_append_undelivered (s : State) :
    s.nextReceived ++ (if s.fireOut then [] else waiting s) = s.received ++ waiting s := by
  cases hf : s.fireOut with
  | true => simp [nextReceived_of_fireOut hf, waiting_of_valid (outValidQ_of_fireOut hf)]
  | false => simp [nextReceived_of_no_fireOut hf]

/-- After an edge the undelivered beat waits, then the loaded one: never both, since a load needs the register empty or
drained at that edge (R110, R113). -/
theorem waiting_dataEdge (h : s.pins.rst = false) (o : Option Offer) :
    waiting (s.dataEdge o) = (if s.fireOut then [] else waiting s) ++ (s.loads o).toList := by
  cases hl : s.loads o with
  | none =>
    cases hf : s.fireOut <;>
      simp [waiting, nextOutValidQ_of_no_load hl, nextOutDataQ_of_no_load hl, hf]
  | some d =>
    have hundelivered : (if s.fireOut then [] else waiting s) = [] := by
      rw [fireOut_of_inReady h (inReady_of_loads hl)]
      cases hv : s.outValidQ with
      | true => rfl
      | false => exact waiting_of_empty hv
    rw [hundelivered, waiting_of_valid (nextOutValidQ_of_loads hl), dataEdge_outDataQ, nextOutDataQ_of_loads hl]
    rfl

/-- The register is a queue of one place: an edge puts the loaded beat behind all beats received and waiting (R49). -/
theorem received_append_waiting_dataEdge (h : s.pins.rst = false) (o : Option Offer) :
    (s.dataEdge o).received ++ waiting (s.dataEdge o) = s.received ++ waiting s ++ (s.loads o).toList := by
  rw [dataEdge_received, waiting_dataEdge h, ← List.append_assoc, nextReceived_append_undelivered]

/-- After a reset edge nothing has been taken, received or kept waiting. -/
theorem streamOrdered_resetEdge (s : State) : StreamOrdered s.resetEdge := fun _ => rfl

/-- A data edge puts the encoding of the beat it takes, if any, behind both sides of the order. -/
theorem streamOrdered_dataEdge (hs : StreamOrdered s) (hrst : s.pins.rst = false) (hseen : s.resetSeen = true)
    (offered : Option Instr) : StreamOrdered (s.dataEdge (offered.map offerOf)) := by
  intro _
  rw [dataEdge_taken, streamOutput_nextTaken, hs hseen, received_append_waiting_dataEdge hrst]

end Order

/-! ### The obligations -/

/-- Settles O29: a reset edge empties both sides, and a data edge appends what it loads to both. -/
theorem streamOrderIsInvariant : Obligations.StreamOrderIsInvariant := by
  intro s t hs hstep
  rcases step_next hstep with ⟨_, rfl⟩ | ⟨hrst, hseen, rfl⟩
  · exact streamOrdered_resetEdge s
  · exact streamOrdered_dataEdge hs hrst hseen s.offered

/-- Settles O17: a reset edge, at which nothing fires, and a data edge with the beat offered. -/
theorem encodingBeatsFrame : Obligations.EncodingBeatsFrame := by
  intro i s t _ hexec
  rw [exec_eq_clockEdge] at hexec
  have hdelivered := delivered_of_clockEdge hexec
  rcases clockEdge_next hexec with ⟨hrst, rfl⟩ | ⟨hrst, _, rfl⟩
  · have hnotRun : s.pins.rst ≠ false := by simp [hrst]
    exact ⟨fun _ => resetEdge_outDataQ s, fun _ h => absurd h hnotRun, fun h => h.symm, fun h => absurd h hnotRun,
      fun h => absurd h hnotRun, fun h => absurd h hnotRun, hdelivered, resetEdge_schedule s, resetEdge_cycle s⟩
  · exact ⟨fun hr => nextOutDataQ_of_no_load (loads_of_not_inReady hr),
      fun hr _ => nextOutValidQ_of_not_inReady hrst hr, fun _ => dataEdge_resetSeen s _,
      fun _ => nextTaken_offerOf s i, fun _ => dataEdge_received s _, fun _ => dataEdge_earlier s _,
      hdelivered, dataEdge_schedule s _, dataEdge_cycle s _⟩

/-- Settles O25: a reset edge takes nothing, and a data edge takes the beat on the port exactly where it fires. -/
theorem takingIsAtFireInEdges : Obligations.TakingIsAtFireInEdges := by
  intro s t hstep
  refine ⟨fun hrun => ?_, fireIn_of_rst⟩
  rcases step_next hstep with ⟨hrst, _⟩ | ⟨_, _, rfl⟩
  · exact absurd (hrun.symm.trans hrst) Bool.false_ne_true
  · exact nextTaken_offered s

/-- Settles O30: right after reset both sides are empty, and at power-on, before the first reset edge, nothing is said. -/
theorem streamOrderHoldsAtReset : Obligations.StreamOrderHoldsAtReset :=
  ⟨fun _ => rfl, fun _ _ hseen => absurd hseen Bool.false_ne_true⟩

end Sys2Proof.Machine
end

section
/-! The family 30_encoding.md: the decoder and the encoder are inverse (R60, R63), the operation map by mask and match
(R63), the beat a step runs (R60), and the output beats the stage can present (R61). -/

namespace Sys2Proof.Machine

/-! ### Laws -/

section Decoder

/-- The four values of a length field (R63). -/
theorem len_cases : ∀ len : Len, len = 3 ∨ len = 2 ∨ len = 1 ∨ len = 0 := by decide

variable {w : BeatWord}

theorem decode_of_lenOf_three (h : lenOf w = 3) :
    decode w = .enc3 (w.extractLsb' 16 8) (w.extractLsb' 8 8) (w.extractLsb' 0 8) := by
  simp [decode, h]

theorem decode_of_lenOf_two (h : lenOf w = 2) :
    decode w = .enc2 (w.extractLsb' 16 8) (w.extractLsb' 8 8) (w.extractLsb' 0 8) := by
  simp [decode, h]

theorem decode_of_lenOf_one (h : lenOf w = 1) : decode w = .enc1 (w.extractLsb' 16 8) (w.extractLsb' 0 16) := by
  simp [decode, h]

theorem decode_of_lenOf_zero (h : lenOf w = 0) : decode w = .nop (w.extractLsb' 0 24) := by
  simp [decode, h]

/-- A slice of a beat word below the length field is that slice of its data field (R60). -/
theorem extractLsb'_beatWord (len : Len) (data : Lanes) {start n : Nat} (h : start + n ≤ 24) :
    (beatWord len data).extractLsb' start n = data.extractLsb' start n :=
  BitVec.extractLsb'_append_eq_of_add_le h

theorem decode_beatWord_three (data : Lanes) :
    decode (beatWord 3 data) = .enc3 (laneA data) (laneB data) (laneC data) := by
  rw [decode_of_lenOf_three (lenOf_beatWord 3 data)]
  simp [extractLsb'_beatWord, laneA, laneB, laneC]

theorem decode_beatWord_two (data : Lanes) :
    decode (beatWord 2 data) = .enc2 (laneA data) (laneB data) (laneC data) := by
  rw [decode_of_lenOf_two (lenOf_beatWord 2 data)]
  simp [extractLsb'_beatWord, laneA, laneB, laneC]

theorem decode_beatWord_one (data : Lanes) :
    decode (beatWord 1 data) = .enc1 (laneA data) (data.extractLsb' 0 16) := by
  rw [decode_of_lenOf_one (lenOf_beatWord 1 data)]
  simp [extractLsb'_beatWord, laneA]

theorem decode_beatWord_zero (data : Lanes) : decode (beatWord 0 data) = .nop data := by
  rw [decode_of_lenOf_zero (lenOf_beatWord 0 data)]
  simp [extractLsb'_beatWord]

/-- Each operation's word has its length field and its lanes, from which the decoder reads it back (R60, R63). -/
theorem decode_encode (i : Instr) : decode (encode i) = i := by
  cases i with
  | enc3 a b c => rw [encode_enc3, decode_beatWord_three, laneA_append, laneB_append, laneC_append]
  | enc2 a b x => rw [encode_enc2, decode_beatWord_two, laneA_append, laneB_append, laneC_append]
  | enc1 a x => rw [encode_enc1, decode_beatWord_one, laneA_append_pair, BitVec.extractLsb'_append_eq_right]
  | nop x => rw [encode_nop, decode_beatWord_zero]

/-- A data field is its three lanes (R60). -/
theorem append_lanes (data : Lanes) : (laneA data ++ laneB data ++ laneC data : BitVec 24) = data := by
  rw [laneA, laneB, laneC, BitVec.extractLsb'_append_extractLsb'_eq_extractLsb' (show 16 = 8 + 8 from rfl),
    BitVec.extractLsb'_append_extractLsb'_eq_extractLsb' (show 8 = 0 + 8 from rfl), BitVec.extractLsb'_eq_self]

/-- A data field is lane `a` and the two lanes below it (R60). -/
theorem append_laneA_rest (data : Lanes) : (laneA data ++ data.extractLsb' 0 16 : BitVec 24) = data := by
  rw [laneA, BitVec.extractLsb'_append_extractLsb'_eq_extractLsb' (show 16 = 0 + 16 from rfl),
    BitVec.extractLsb'_eq_self]

/-- Encoding what was decoded from a length and a data field gives both back (R60, R63, R64). -/
theorem encode_decode_beatWord (len : Len) (data : Lanes) :
    encode (decode (beatWord len data)) = beatWord len data := by
  rcases len_cases len with rfl | rfl | rfl | rfl
  · rw [decode_beatWord_three, encode_enc3, append_lanes]
  · rw [decode_beatWord_two, encode_enc2, append_lanes]
  · rw [decode_beatWord_one, encode_enc1, append_laneA_rest]
  · rw [decode_beatWord_zero, encode_nop]

theorem encode_decode (w : BeatWord) : encode (decode w) = w := by
  rw [← beatWord_lenOf_dataOf w, encode_decode_beatWord]

end Decoder

section OperationMap

variable {v w : BeatWord}

/-- A word lies in the row of the operation map whose match has its length field (R63). -/
theorem and_mask_eq_iff (w : BeatWord) (len : Len) : w &&& 0x3000000 = beatWord len 0 ↔ lenOf w = len := by
  rw [Laws.and_mask_eq]
  constructor
  · intro h
    rw [← lenOf_beatWord (lenOf w) 0, h, lenOf_beatWord]
  · intro h
    rw [h]

theorem lenOf_of_decode {i : Instr} (h : decode w = i) : lenOf w = lenOf (encode i) := by
  rw [← h, encode_decode]

theorem decode_eq_enc3_iff :
    decode w = .enc3 (w.extractLsb' 16 8) (w.extractLsb' 8 8) (w.extractLsb' 0 8) ↔ lenOf w = 3 :=
  ⟨fun h => (lenOf_of_decode h).trans (lenOf_encode _), decode_of_lenOf_three⟩

theorem decode_eq_enc2_iff :
    decode w = .enc2 (w.extractLsb' 16 8) (w.extractLsb' 8 8) (w.extractLsb' 0 8) ↔ lenOf w = 2 :=
  ⟨fun h => (lenOf_of_decode h).trans (lenOf_encode _), decode_of_lenOf_two⟩

theorem decode_eq_enc1_iff : decode w = .enc1 (w.extractLsb' 16 8) (w.extractLsb' 0 16) ↔ lenOf w = 1 :=
  ⟨fun h => (lenOf_of_decode h).trans (lenOf_encode _), decode_of_lenOf_one⟩

theorem decode_eq_nop_iff : decode w = .nop (w.extractLsb' 0 24) ↔ lenOf w = 0 :=
  ⟨fun h => (lenOf_of_decode h).trans (lenOf_encode _), decode_of_lenOf_zero⟩

/-- A beat is short exactly when its length field is 1 or 2 (R63, R90). -/
theorem isShort_iff_lenOf_encode (i : Instr) : i.isShort = true ↔ lenOf (encode i) = 1 ∨ lenOf (encode i) = 2 := by
  rw [lenOf_encode]; cases i <;> simp [Instr.isShort]

/-- The data field never changes which operation is performed (R63). -/
theorem decode_kind_congr (h : lenOf v = lenOf w) :
    (decode v).isEmpty = (decode w).isEmpty ∧ (decode v).isShort = (decode w).isShort := by
  constructor
  · rw [Bool.eq_iff_iff, isEmpty_iff_lenOf_encode, isEmpty_iff_lenOf_encode, encode_decode, encode_decode, h]
  · rw [Bool.eq_iff_iff, isShort_iff_lenOf_encode, isShort_iff_lenOf_encode, encode_decode, encode_decode, h]

end OperationMap

section Legality

variable {s : State}

theorem legalBeat_outBeatOf (s0 s1 s2 s3 : Byte) :
    legalBeat (outBeatOf s0 s1 s2 s3) = true ↔
      s0 ∈ lutTable ∧ s1 ∈ lutTable ∧
        (s2 ∈ lutTable ∧ s3 ∈ lutTable ∨ s2 ∈ lutTable ∧ s3 = pad ∨ s2 = pad ∧ s3 = pad) := by
  simp [legalBeat, and_assoc, or_assoc]

/-- What a beat encodes to is legal: no, one or two `PAD`s, in the last slots (R86 to R88, R90, R93). -/
theorem legalBeat_beatOutput {i : Instr} {out : OutBeat} (h : beatOutput i = some out) : legalBeat out = true := by
  cases i with
  | enc3 a b c =>
    obtain rfl := Option.some.inj ((beatOutput_enc3 a b c).symm.trans h)
    rw [encodeGroup_three, legalBeat_outBeatOf]
    exact ⟨lut_mem _, lut_mem _, .inl ⟨lut_mem _, lut_mem _⟩⟩
  | enc2 a b x =>
    obtain rfl := Option.some.inj ((beatOutput_enc2 a b x).symm.trans h)
    rw [encodeGroup_two, legalBeat_outBeatOf]
    exact ⟨lut_mem _, lut_mem _, .inr (.inl ⟨lut_mem _, rfl⟩)⟩
  | enc1 a x =>
    obtain rfl := Option.some.inj ((beatOutput_enc1 a x).symm.trans h)
    rw [encodeGroup_one, legalBeat_outBeatOf]
    exact ⟨lut_mem _, lut_mem _, .inr (.inr ⟨rfl, rfl⟩)⟩
  | nop x => cases h

/-- What an edge loads is the output of the offered beat (R113). -/
theorem exists_beatOutput_of_loads {offered : Option Instr} {d : OutBeat}
    (h : s.loads (offered.map offerOf) = some d) : ∃ i, beatOutput i = some d := by
  cases offered with
  | none => cases h
  | some i => exact ⟨i, (loads_offerOf_fire (inReady_of_loads h)).symm.trans h⟩

/-- Past the first reset edge output legality speaks of all beats delivered or waiting alike. -/
theorem outputLegal_iff (hseen : s.resetSeen = true) :
    OutputLegal s ↔ ∀ out ∈ s.delivered ++ waiting s, legalBeat out = true := by
  simp only [OutputLegal, hseen, true_implies, List.forall_mem_append]

/-- An edge puts the loaded beat behind all beats ever delivered and the waiting one (R49, R114). -/
theorem delivered_append_waiting_dataEdge (h : s.pins.rst = false) (o : Option Offer) :
    (s.dataEdge o).delivered ++ waiting (s.dataEdge o) = s.delivered ++ waiting s ++ (s.loads o).toList := by
  simp only [State.delivered, dataEdge_earlier, List.append_assoc]
  rw [received_append_waiting_dataEdge h, List.append_assoc]

/-- A reset edge keeps the deliveries and lets nothing wait (R150, R154). -/
theorem outputLegal_resetEdge (hs : OutputLegal s) : OutputLegal s.resetEdge := by
  obtain ⟨hdelivered, _⟩ := hs
  rw [outputLegal_iff (resetEdge_resetSeen s), delivered_resetEdge, waiting_resetEdge, List.append_nil]
  exact hdelivered

/-- A data edge adds to the beats delivered or waiting at most the output of the offered beat. -/
theorem outputLegal_dataEdge (hs : OutputLegal s) (hrst : s.pins.rst = false) (hseen : s.resetSeen = true)
    (offered : Option Instr) : OutputLegal (s.dataEdge (offered.map offerOf)) := by
  rw [outputLegal_iff hseen] at hs
  rw [outputLegal_iff ((dataEdge_resetSeen s _).trans hseen), delivered_append_waiting_dataEdge hrst,
    List.forall_mem_append]
  refine ⟨hs, fun out hout => ?_⟩
  obtain ⟨i, hi⟩ := exists_beatOutput_of_loads (Option.mem_toList.mp hout)
  exact legalBeat_beatOutput hi

end Legality

/-! ### The obligations -/

/-- Settles O4: by the operation, its length field and its lanes read back. -/
theorem decodeOfEncodeIsIdentity : Obligations.DecodeOfEncodeIsIdentity := fun i _ => decode_encode i

/-- Settles O31: a reset edge adds no beat, and a data edge only the output of an operation, which is legal. -/
theorem outputLegalityIsInvariant : Obligations.OutputLegalityIsInvariant := by
  intro s t hs hstep
  rcases step_next hstep with ⟨_, rfl⟩ | ⟨hrst, hseen, rfl⟩
  · exact outputLegal_resetEdge hs
  · exact outputLegal_dataEdge hs hrst hseen s.offered

/-- Settles O3: a row by mask and match, and the operation decoded, both say the word's length field. -/
theorem operationMapCoversEveryWordOnce : Obligations.OperationMapCoversEveryWordOnce := by
  intro w
  have hrow3 : w &&& 0x3000000 = 0x3000000 ↔ lenOf w = 3 := and_mask_eq_iff w 3
  have hrow2 : w &&& 0x3000000 = 0x2000000 ↔ lenOf w = 2 := and_mask_eq_iff w 2
  have hrow1 : w &&& 0x3000000 = 0x1000000 ↔ lenOf w = 1 := and_mask_eq_iff w 1
  have hrow0 : w &&& 0x3000000 = 0x0000000 ↔ lenOf w = 0 := and_mask_eq_iff w 0
  refine ⟨hrow3.trans decode_eq_enc3_iff.symm, hrow2.trans decode_eq_enc2_iff.symm,
    hrow1.trans decode_eq_enc1_iff.symm, hrow0.trans decode_eq_nop_iff.symm, ?_, fun v hv => ?_⟩
  · rw [hrow3, hrow2, hrow1, hrow0]
    exact len_cases (lenOf w)
  · rw [Laws.and_mask_eq w] at hv
    exact decode_kind_congr ((and_mask_eq_iff v (lenOf w)).mp hv)

/-- Settles O5: a word is its length and data fields, and each length's operation keeps all lanes. -/
theorem encodeOfDecodeIsIdentity : Obligations.EncodeOfDecodeIsIdentity := encode_decode

/-- Settles O6: each of the six words is evaluated. -/
theorem writtenOutWordsDecode : Obligations.WrittenOutWordsDecode := by
  unfold Obligations.WrittenOutWordsDecode
  decide

/-- Settles O22: with `in_valid` = 1 the offered operation is the decoded beat, and a step dispatches to it. -/
theorem stepRunsTheOfferedBeat : Obligations.StepRunsTheOfferedBeat := by
  intro s i hvalid hdecode
  have hoffered : s.offered = some i := by simp [State.offered, hvalid, hdecode]
  simp only [step, hoffered]

end Sys2Proof.Machine
end

section
/-! The family 40_group_encode.md: the packed value and its slices (R81 to R83), what each operation writes where it fires
(R86 to R89), the padding (R90), and what the output depends on (R91, R92). -/

namespace Sys2Proof.Machine

/-! ### Laws -/

section PackedValue

/-- Bytes side by side keep their unsigned weights (R82). -/
theorem toNat_append_bytes (a b c : Byte) :
    (a ++ b ++ c : BitVec 24).toNat = a.toNat * 65536 + b.toNat * 256 + c.toNat := by
  have hab : (a ++ b : BitVec 16).toNat = a.toNat * 256 + b.toNat := by
    rw [BitVec.toNat_append, ← Nat.shiftLeft_add_eq_or_of_lt b.isLt, Nat.shiftLeft_eq]
  rw [BitVec.toNat_append, ← Nat.shiftLeft_add_eq_or_of_lt c.isLt, Nat.shiftLeft_eq, hab]
  omega

/-- A beat of three bytes is packed as it stands (R81, R82). -/
theorem packedValue_three (data : Lanes) : packedValue 3 data = data :=
  (pack_eq_append _ _ _).trans (append_lanes data)

/-- A lane's value matters only where its byte is present (R81). -/
theorem maskLane_congr {present : Bool} {x y : Byte} (h : present = true → x = y) :
    maskLane present x = maskLane present y := by
  cases present with
  | true => rw [h rfl]
  | false => rfl

/-- The lanes masked to zero are not seen in the packed value (R81). -/
theorem packedValue_congr {len : Len} {data data' : Lanes} (ha : laneA data = laneA data')
    (hb : bPresent len = true → laneB data = laneB data') (hc : cPresent len = true → laneC data = laneC data') :
    packedValue len data = packedValue len data' := by
  rw [packedValue, packedValue, ha, maskLane_congr hb, maskLane_congr hc]

end PackedValue

section Slices

/-- The mask 63 is the remainder by 64, and a shift to the right is a division (R83). -/
theorem toNat_slotIndex (k : Fin 4) (tot : Lanes) :
    (slotIndex k tot).toNat = tot.toNat / 2 ^ (18 - 6 * k.val) % 64 := by
  have h63 : (63 : Lanes).toNat = 2 ^ 6 - 1 := rfl
  rw [slotIndex, BitVec.toNat_setWidth, BitVec.toNat_and, BitVec.toNat_ushiftRight, h63,
    Nat.and_two_pow_sub_one_eq_mod, Nat.mod_mod, Nat.shiftRight_eq_div_pow]

theorem slotIndex_eq_extractLsb' (k : Fin 4) (tot : Lanes) :
    slotIndex k tot = tot.extractLsb' (18 - 6 * k.val) 6 := by
  apply BitVec.eq_of_toNat_eq
  rw [toNat_slotIndex, BitVec.extractLsb'_toNat, Nat.shiftRight_eq_div_pow]

/-- The packed value is its four indices (R83). -/
theorem append_slotIndices (tot : Lanes) :
    (slotIndex 0 tot ++ slotIndex 1 tot ++ slotIndex 2 tot ++ slotIndex 3 tot : BitVec 24) = tot := by
  simp only [slotIndex_eq_extractLsb']
  rw [BitVec.extractLsb'_append_extractLsb'_eq_extractLsb' (by decide),
    BitVec.extractLsb'_append_extractLsb'_eq_extractLsb' (by decide),
    BitVec.extractLsb'_append_extractLsb'_eq_extractLsb' (by decide)]
  exact BitVec.extractLsb'_eq_self

/-- Any four indices are those of some packed value (R83). -/
theorem slotIndex_append (i0 i1 i2 i3 : Index) :
    slotIndex 0 (i0 ++ i1 ++ i2 ++ i3 : BitVec 24) = i0 ∧ slotIndex 1 (i0 ++ i1 ++ i2 ++ i3 : BitVec 24) = i1 ∧
    slotIndex 2 (i0 ++ i1 ++ i2 ++ i3 : BitVec 24) = i2 ∧ slotIndex 3 (i0 ++ i1 ++ i2 ++ i3 : BitVec 24) = i3 := by
  simp only [slotIndex_eq_extractLsb']
  refine ⟨?_, ?_, ?_, BitVec.extractLsb'_append_eq_right⟩
  · exact (BitVec.extractLsb'_append_eq_of_le (by decide)).trans
      ((BitVec.extractLsb'_append_eq_of_le (by decide)).trans BitVec.extractLsb'_append_eq_left)
  · exact (BitVec.extractLsb'_append_eq_of_le (by decide)).trans
      ((BitVec.extractLsb'_append_eq_of_le (by decide)).trans BitVec.extractLsb'_append_eq_right)
  · exact (BitVec.extractLsb'_append_eq_of_le (by decide)).trans BitVec.extractLsb'_append_eq_right

end Slices

section Characters

theorem chars_outBeatOf (s0 s1 s2 s3 : Byte) : chars (outBeatOf s0 s1 s2 s3) = [s0, s1, s2, s3] := by
  simp [chars]

/-- Every alphabet character has an index (R26). -/
theorem exists_lut_of_mem {ch : Byte} (h : ch ∈ lutTable) : ∃ i : Index, lut i = ch := by
  obtain ⟨n, hn, rfl⟩ := List.getElem_of_mem h
  exact ⟨⟨n, hn⟩, rfl⟩

/-- A slot is `PAD` exactly where its byte is absent (R85). -/
theorem padSelect_lut_eq_pad_iff (present : Bool) (i : Index) :
    padSelect present (lut i) = pad ↔ present = false := by
  cases present with
  | true => simp [padSelect, lut_ne_pad]
  | false => simp [padSelect]

theorem padSelect_lut_mem (present : Bool) (i : Index) :
    padSelect present (lut i) ∈ lutTable ∨ padSelect present (lut i) = pad := by
  cases present with
  | true => exact .inl (lut_mem i)
  | false => exact .inr rfl

/-- The codes of the alphabet lie from `+` to `z` (R93). -/
theorem toNat_of_mem_lutTable {ch : Byte} (h : ch ∈ lutTable) : 0x2B ≤ ch.toNat ∧ ch.toNat ≤ 0x7A := by
  have hall : (lutTable.all fun c => 0x2B ≤ c.toNat && c.toNat ≤ 0x7A) = true := by decide
  simpa using List.all_eq_true.mp hall ch h

/-- The codes of the alphabet and of `PAD` are 7-bit, from `+` to `z` (R93). -/
theorem ascii_of_mem_or_pad {ch : Byte} (h : ch ∈ lutTable ∨ ch = pad) :
    ch.getLsbD 7 = false ∧ 0x2B ≤ ch.toNat ∧ ch.toNat ≤ 0x7A := by
  rcases h with hmem | rfl
  · exact ⟨getLsbD_seven_of_mem_lutTable ch hmem, toNat_of_mem_lutTable hmem⟩
  · decide

/-- A beat of two bytes fills four bits of slot 2's index, so its character is one of 16 (R87). -/
theorem lut_append_two_zeros_mem : ∀ n : BitVec 4,
    lut (n ++ 0b00#2 : BitVec 6) ∈ ([0x41, 0x45, 0x49, 0x4D, 0x51, 0x55, 0x59, 0x63, 0x67, 0x6B, 0x6F, 0x73, 0x77,
      0x30, 0x34, 0x38] : List Byte) := by decide

/-- A beat of one byte fills two bits of slot 1's index, so its character is one of four (R88). -/
theorem lut_append_four_zeros :
    lut (0b00#2 ++ 0b0000#4 : BitVec 6) = 0x41 ∧ lut (0b01#2 ++ 0b0000#4 : BitVec 6) = 0x51 ∧
    lut (0b10#2 ++ 0b0000#4 : BitVec 6) = 0x67 ∧ lut (0b11#2 ++ 0b0000#4 : BitVec 6) = 0x77 := by decide

end Characters

section Group

variable (len : Len) (data : Lanes)

theorem slotChar_zero_encodeGroup : slotChar 0 (encodeGroup len data) = lut (slotIndex 0 (packedValue len data)) :=
  slotChar_zero_outBeatOf _ _ _ _

theorem slotChar_one_encodeGroup : slotChar 1 (encodeGroup len data) = lut (slotIndex 1 (packedValue len data)) :=
  slotChar_one_outBeatOf _ _ _ _

theorem slotChar_two_encodeGroup :
    slotChar 2 (encodeGroup len data) = padSelect (bPresent len) (lut (slotIndex 2 (packedValue len data))) :=
  slotChar_two_outBeatOf _ _ _ _

theorem slotChar_three_encodeGroup :
    slotChar 3 (encodeGroup len data) = padSelect (cPresent len) (lut (slotIndex 3 (packedValue len data))) :=
  slotChar_three_outBeatOf _ _ _ _

/-- Every character of a group is an alphabet entry or `PAD` (R85, R93). -/
theorem mem_lutTable_or_pad_of_mem_chars {ch : Byte} (h : ch ∈ chars (encodeGroup len data)) :
    ch ∈ lutTable ∨ ch = pad := by
  rw [encodeGroup, chars_outBeatOf] at h
  simp only [List.mem_cons, List.not_mem_nil, or_false] at h
  rcases h with rfl | rfl | rfl | rfl
  · exact .inl (lut_mem _)
  · exact .inl (lut_mem _)
  · exact padSelect_lut_mem _ _
  · exact padSelect_lut_mem _ _

/-- Slots 2 and 3 hold one `PAD` for each absent byte, slots 0 and 1 none (R85, R90). -/
theorem padCount_encodeGroup :
    padCount (encodeGroup len data) = (if bPresent len then 0 else 1) + (if cPresent len then 0 else 1) := by
  rw [padCount, encodeGroup, chars_outBeatOf]
  cases bPresent len <;> cases cPresent len <;> simp [padSelect, lut_ne_pad]

/-- The absent bytes of a beat number `3 - len` (R81, R90). -/
theorem absent_bytes_eq : ∀ len : Len, len ≠ 0 →
    (if bPresent len then 0 else 1) + (if cPresent len then 0 else 1) = 3 - len.toNat := by decide

theorem bPresent_eq_false_iff : ∀ len : Len, len ≠ 0 → (bPresent len = false ↔ len = 1) := by decide

theorem cPresent_eq_false_iff : ∀ len : Len, cPresent len = false ↔ len ≠ 3 := by decide

/-- With all bytes present the four characters are those of the data field's indices (R86). -/
theorem encodeGroup_three_eq_outBeatOf :
    encodeGroup 3 data =
      outBeatOf (lut (slotIndex 0 data)) (lut (slotIndex 1 data)) (lut (slotIndex 2 data)) (lut (slotIndex 3 data)) := by
  rw [encodeGroup, packedValue_three]
  rfl

/-- Three bytes never give a padding character (R86). -/
theorem slotChar_encodeGroup_three_mem (k : Fin 4) : slotChar k (encodeGroup 3 data) ∈ lutTable := by
  rw [encodeGroup_three_eq_outBeatOf]
  fin_cases k <;> simp [lut_mem]

/-- Four characters over the alphabet are four indices, and these are one data field (R86). -/
theorem existsUnique_encodeGroup_three {out : OutBeat} (h : ∀ k : Fin 4, slotChar k out ∈ lutTable) :
    ∃! data : Lanes, encodeGroup 3 data = out := by
  obtain ⟨i0, h0⟩ := exists_lut_of_mem (h 0)
  obtain ⟨i1, h1⟩ := exists_lut_of_mem (h 1)
  obtain ⟨i2, h2⟩ := exists_lut_of_mem (h 2)
  obtain ⟨i3, h3⟩ := exists_lut_of_mem (h 3)
  obtain ⟨e0, e1, e2, e3⟩ := slotIndex_append i0 i1 i2 i3
  refine ⟨(i0 ++ i1 ++ i2 ++ i3 : BitVec 24), ?_, fun data hdata => ?_⟩
  · show encodeGroup 3 (i0 ++ i1 ++ i2 ++ i3 : BitVec 24) = out
    rw [encodeGroup_three_eq_outBeatOf, e0, e1, e2, e3, h0, h1, h2, h3, outBeatOf_slotChar]
  · subst hdata
    simp only [encodeGroup_three_eq_outBeatOf, slotChar_zero_outBeatOf, slotChar_one_outBeatOf,
      slotChar_two_outBeatOf, slotChar_three_outBeatOf] at h0 h1 h2 h3
    rw [lut_injective h0, lut_injective h1, lut_injective h2, lut_injective h3, append_slotIndices]

theorem encodeGroup_congr {len : Len} {data data' : Lanes} (h : packedValue len data = packedValue len data') :
    encodeGroup len data = encodeGroup len data' := by
  simp only [encodeGroup, h]

end Group

section Beats

variable {s t : State} {i j : Instr}

/-- The ignored lanes have no effect on the output beat (R91). -/
theorem beatOutput_plain (i : Instr) : beatOutput i.plain = beatOutput i := by
  cases i with
  | enc3 a b c => rfl
  | enc2 a b x => simp only [Instr.plain, beatOutput_enc2, encodeGroup_two]
  | enc1 a x => simp only [Instr.plain, beatOutput_enc1, encodeGroup_one]
  | nop x => simp only [Instr.plain, beatOutput_nop]

theorem beatOutput_congr (h : i.plain = j.plain) : beatOutput i = beatOutput j := by
  rw [← beatOutput_plain i, h, beatOutput_plain]

/-- A beat that is not empty has an output beat (R80). -/
theorem exists_beatOutput (h : i.isEmpty = false) : ∃ d, beatOutput i = some d := by
  simp [beatOutput, h]

/-- An empty beat anywhere in a sequence adds no output (R89). -/
theorem streamOutput_nop_cons (x : BitVec 24) (ys : List Instr) : streamOutput (.nop x :: ys) = streamOutput ys := rfl

theorem exec_of_run (i : Instr) (hseen : s.resetSeen = true) (hrst : s.pins.rst = false) :
    exec i s = .next (s.dataEdge (some (offerOf i))) := by
  rw [exec_eq_clockEdge, clockEdge_of_run hrst hseen]

/-- Where a beat with an output fires, that output is what the registers hold next (R86 to R88, R113). -/
theorem exec_of_fire {d : OutBeat} (hd : beatOutput i = some d) (hseen : s.resetSeen = true)
    (hrst : s.pins.rst = false) (hready : s.inReady = true) :
    ∃ t, exec i s = .next t ∧ t.outValidQ = true ∧ t.outDataQ = d := by
  have hload : s.loads (some (offerOf i)) = some d := (loads_offerOf_fire hready).trans hd
  exact ⟨_, exec_of_run i hseen hrst, nextOutValidQ_of_loads hload, nextOutDataQ_of_loads hload⟩

/-- A NOP loads nothing, whether it fires or waits (R89). -/
theorem loads_offerOf_nop (x : BitVec 24) : s.loads (some (offerOf (.nop x))) = none := by
  cases hr : s.inReady with
  | true => exact loads_offerOf_fire hr
  | false => exact loads_offerOf_held hr

theorem loads_offerOf_congr (h : beatOutput i = beatOutput j) :
    s.loads (some (offerOf i)) = s.loads (some (offerOf j)) := by
  simp only [State.loads, offerOf_load, h]

/-- Of the offered beat only what it loads enters the edge, but for the host's record (R113). -/
theorem dataEdge_congr {o o' : Option Offer} (h : s.loads o = s.loads o') :
    s.dataEdge o' = { s.dataEdge o with taken := (s.dataEdge o').taken } := by
  simp only [State.dataEdge, State.nextOutValidQ, State.nextOutDataQ, h]

/-- Operations with the same output act alike but for the host's record of the beat taken (R91). -/
theorem exec_congr (h : beatOutput i = beatOutput j) (hexec : exec i s = .next t) :
    ∃ u, exec j s = .next u ∧ u = { t with taken := u.taken } := by
  rw [exec_eq_clockEdge] at hexec
  rw [exec_eq_clockEdge]
  rcases clockEdge_next hexec with ⟨hrst, rfl⟩ | ⟨hrst, hseen, rfl⟩
  · exact ⟨s.resetEdge, clockEdge_of_rst hrst, rfl⟩
  · exact ⟨_, clockEdge_of_run hrst hseen, dataEdge_congr (loads_offerOf_congr h)⟩

end Beats

/-! ### The obligations -/

/-- Settles O7: masking by presence is the choice by length, and the packed bytes stand side by side. -/
theorem packedValueHasTheMaskedLanes : Obligations.PackedValueHasTheMaskedLanes := by
  intro len data _ bm cm
  have hlanes : packedValue len data = (laneA data ++ bm ++ cm : BitVec 24) := by
    simp only [packedValue, pack_eq_append, maskLane, bPresent, cPresent, decide_eq_true_eq, bm, cm]
  exact ⟨hlanes, hlanes ▸ toNat_append_bytes (laneA data) bm cm⟩

/-- Settles O8: the mask and shift as a slice and as arithmetic, and the slices of the packed bytes. -/
theorem indicesAreTheSlices : Obligations.IndicesAreTheSlices :=
  ⟨fun tot k => ⟨slotIndex_eq_extractLsb' k tot, toNat_slotIndex k tot⟩,
    fun a b c => ⟨slotIndex_zero_pack a b c, slotIndex_one_pack a b c, slotIndex_two_pack a b c,
      slotIndex_three_pack a b c⟩⟩

/-- Settles O9: the firing beat loads its group, whose characters and data fields correspond one to one. -/
theorem enc3EncodesThreeBytes : Obligations.Enc3EncodesThreeBytes := by
  refine ⟨fun a b c s hseen hrst hready => ⟨decode_encode (.enc3 a b c), ?_⟩,
    fun out hout => existsUnique_encodeGroup_three hout, by decide, by decide, by decide⟩
  obtain ⟨t, hexec, hvalid, hdata⟩ := exec_of_fire (beatOutput_enc3 a b c) hseen hrst hready
  refine ⟨t, hexec, hvalid, hdata.trans (encodeGroup_three a b c), hdata, fun k => ?_⟩
  rw [hdata]
  have hmem := slotChar_encodeGroup_three_mem (a ++ b ++ c : BitVec 24) k
  exact ⟨hmem, fun hpad => pad_not_mem_lutTable (hpad ▸ hmem)⟩

/-- Settles O10: the firing beat loads its group, with `PAD` in slot 3 and two zero bits in slot 2's index. -/
theorem enc2EncodesTwoBytes : Obligations.Enc2EncodesTwoBytes := by
  refine ⟨fun a b x s hseen hrst hready => ⟨decode_encode (.enc2 a b x), ?_⟩, by decide, by decide, by decide⟩
  obtain ⟨t, hexec, hvalid, hdata⟩ := exec_of_fire (beatOutput_enc2 a b x) hseen hrst hready
  refine ⟨t, hexec, hvalid, hdata.trans (encodeGroup_two a b x), hdata, ?_⟩
  rw [hdata]
  refine ⟨padCount_encodeGroup 2 _, slotChar_three_encodeGroup 2 _, ?_⟩
  rw [encodeGroup_two, slotChar_two_outBeatOf]
  exact lut_append_two_zeros_mem _

/-- Settles O11: the firing beat loads its group, with `PAD` in slots 2 and 3 and four zero bits in slot 1's index. -/
theorem enc1EncodesOneByte : Obligations.Enc1EncodesOneByte := by
  refine ⟨fun a x s hseen hrst hready => ⟨decode_encode (.enc1 a x), ?_⟩, by decide, by decide, by decide, by decide⟩
  obtain ⟨t, hexec, hvalid, hdata⟩ := exec_of_fire (beatOutput_enc1 a x) hseen hrst hready
  refine ⟨t, hexec, hvalid, hdata.trans (encodeGroup_one a x), hdata, ?_⟩
  rw [hdata]
  refine ⟨padCount_encodeGroup 1 _, slotChar_two_encodeGroup 1 _, slotChar_three_encodeGroup 1 _, ?_⟩
  rw [encodeGroup_one, slotChar_one_outBeatOf]
  obtain ⟨h00, h01, h10, h11⟩ := lut_append_four_zeros
  exact ⟨fun h => h ▸ h00, fun h => h ▸ h01, fun h => h ▸ h10, fun h => h ▸ h11⟩

/-- Settles O12: a firing NOP is taken and loads nothing, and it adds nothing to the output of a sequence. -/
theorem nopIsConsumedWithoutOutput : Obligations.NopIsConsumedWithoutOutput := by
  refine ⟨fun x s hseen hrst hready => ?_, fun xs ys x => ?_, by decide⟩
  · exact ⟨decode_encode (.nop x), fun hvalid => (fireOut_of_inReady hrst hready).trans hvalid,
      _, exec_of_run (.nop x) hseen hrst, nextOutDataQ_of_no_load (loads_offerOf_nop x),
      nextOutValidQ_of_no_load (loads_offerOf_nop x), nextTaken_offerOf_fire hready, dataEdge_received s _⟩
  · rw [streamOutput_append, streamOutput_append, streamOutput_nop_cons]

/-- Settles O13: the padding characters are one for each absent byte, in that byte's slot. -/
theorem paddingCountIsThreeMinusLength : Obligations.PaddingCountIsThreeMinusLength := by
  intro len data hlen
  rw [padCount_encodeGroup, slotChar_zero_encodeGroup, slotChar_one_encodeGroup, slotChar_two_encodeGroup,
    slotChar_three_encodeGroup, padSelect_lut_eq_pad_iff, padSelect_lut_eq_pad_iff]
  exact ⟨absent_bytes_eq len hlen, lut_ne_pad _, lut_ne_pad _, bPresent_eq_false_iff len hlen,
    cPresent_eq_false_iff len⟩

/-- Settles O14: absent lanes are masked out of the packed value, and operations that differ in them load the same. -/
theorem ignoredLanesHaveNoEffect : Obligations.IgnoredLanesHaveNoEffect :=
  ⟨fun _ _ _ _ ha hb hc => encodeGroup_congr (packedValue_congr ha hb hc),
    fun a b x y _ _ => exec_congr (beatOutput_congr (i := .enc2 a b x) (j := .enc2 a b y) rfl),
    fun a x y _ _ => exec_congr (beatOutput_congr (i := .enc1 a x) (j := .enc1 a y) rfl),
    fun x y _ _ => exec_congr (beatOutput_congr (i := .nop x) (j := .nop y) rfl)⟩

/-- Settles O15: both beats load the output of the one plain beat. -/
theorem sameBeatSameOutputInAnyState : Obligations.SameBeatSameOutputInAnyState := by
  intro i j s s' hne hplain hseen hrst hready hseen' hrst' hready'
  obtain ⟨d, hi⟩ := exists_beatOutput hne
  have hj : beatOutput j = some d := (beatOutput_congr hplain).symm.trans hi
  obtain ⟨t, hexec, hvalid, hdata⟩ := exec_of_fire hi hseen hrst hready
  obtain ⟨t', hexec', hvalid', hdata'⟩ := exec_of_fire hj hseen' hrst' hready'
  have hw : waiting t = [d] := hdata ▸ waiting_of_valid hvalid
  have hw' : waiting t' = [d] := hdata' ▸ waiting_of_valid hvalid'
  exact ⟨t, t', hexec, hexec', hw.trans hw'.symm, by rw [hw]; rfl⟩

/-- Settles O16: each character is an alphabet entry or `PAD`, whose codes are 7-bit and in range. -/
theorem outputBytesAreAsciiAlphabet : Obligations.OutputBytesAreAsciiAlphabet := by
  intro len data _ ch hch
  have h := mem_lutTable_or_pad_of_mem_chars len data hch
  exact ⟨h, ascii_of_mem_or_pad h⟩

/-- Settles O18: a reset edge, at which nothing fires, and a data edge that loads nothing. -/
theorem nopFrame : Obligations.NopFrame := by
  intro x s t hexec
  rw [exec_eq_clockEdge] at hexec
  have hdelivered := delivered_of_clockEdge hexec
  rcases clockEdge_next hexec with ⟨hrst, rfl⟩ | ⟨hrst, _, rfl⟩
  · have hnotRun : s.pins.rst ≠ false := by simp [hrst]
    exact ⟨resetEdge_outDataQ s, fun h => absurd h Bool.false_ne_true, fun _ h => absurd h hnotRun, fun h => h.symm,
      fun h => absurd h hnotRun, fun h => absurd h hnotRun, fun h => absurd h hnotRun, hdelivered,
      resetEdge_schedule s, resetEdge_cycle s⟩
  · have hload := loads_offerOf_nop (s := s) x
    have hnoRise : s.nextOutValidQ (some (offerOf (.nop x))) = true → s.outValidQ = true := by
      rw [nextOutValidQ_of_no_load hload]
      cases hf : s.fireOut with
      | true => exact fun _ => outValidQ_of_fireOut hf
      | false => exact id
    exact ⟨nextOutDataQ_of_no_load hload, hnoRise, fun hr _ => nextOutValidQ_of_not_inReady hrst hr,
      fun _ => dataEdge_resetSeen s _, fun _ hr => nextTaken_offerOf_held hr, fun _ => dataEdge_received s _,
      fun _ => dataEdge_earlier s _, hdelivered, dataEdge_schedule s _, dataEdge_cycle s _⟩

/-- Settles O32: no beat has been delivered, and none waits past a reset edge. -/
theorem outputLegalityHoldsAtReset : Obligations.OutputLegalityHoldsAtReset :=
  ⟨⟨fun _ h => absurd h List.not_mem_nil, fun _ _ h => absurd h List.not_mem_nil⟩,
    fun _ _ => ⟨fun _ h => absurd h List.not_mem_nil, fun hseen => absurd hseen Bool.false_ne_true⟩⟩

end Sys2Proof.Machine
end

section
/-! The family 41_stream_framing.md, first part: the ports (R110 to R112), the clock step (R113), deliveries (R114),
runs under back-pressure and at full rate (R115, R116), and a placed word (log entry 7). -/

namespace Sys2Proof.Machine

/-! ### Laws -/

section Ports

variable {s t : State}

theorem inReady_congr (hrst : t.pins.rst = s.pins.rst) (hvalid : t.outValidQ = s.outValidQ)
    (hready : t.pins.outReady = s.pins.outReady) : t.inReady = s.inReady := by
  simp only [State.inReady, hrst, hvalid, hready]

theorem outValid_congr (hrst : t.pins.rst = s.pins.rst) (hvalid : t.outValidQ = s.outValidQ) :
    t.outValid = s.outValid := by
  simp only [State.outValid, hrst, hvalid]

/-- A beat is presented exactly where `out_valid` is 1 (R111, R156). -/
theorem outBeat_eq_none_iff : s.outBeat = none ↔ s.outValid = false := by
  cases h : s.outValid <;> simp [State.outBeat, h]

theorem outBeat_of_outValid (h : s.outValid = true) : s.outBeat = some s.outData := by
  simp [State.outBeat, h]

theorem outBeat_congr (hvalid : t.outValid = s.outValid) (hdata : t.outDataQ = s.outDataQ) : t.outBeat = s.outBeat := by
  simp only [State.outBeat, State.outData, hvalid, hdata]

/-- With `out_ready` = 1 a running stage is ready (R110, R127). -/
theorem inReady_of_outReady (hrst : s.pins.rst = false) (hready : s.pins.outReady = true) : s.inReady = true := by
  rw [inReady_of_run hrst, hready, Bool.or_true]

/-- A waiting beat that is not taken blocks the input (R110, R115). -/
theorem inReady_of_stall (hvalid : s.outValidQ = true) (hstall : s.pins.outReady = false) : s.inReady = false := by
  simp [State.inReady, hvalid, hstall]

theorem fireIn_of_not_inReady (h : s.inReady = false) : s.fireIn = false := by
  simp [State.fireIn, State.firesIn, h]

theorem fireOut_of_stall (hstall : s.pins.outReady = false) : s.fireOut = false := by
  simp [State.fireOut, hstall]

/-- With `out_ready` = 1 a running stage delivers what waits (R111, R127). -/
theorem fireOut_of_outReady (hrst : s.pins.rst = false) (hready : s.pins.outReady = true) : s.fireOut = s.outValidQ :=
  fireOut_of_inReady hrst (inReady_of_outReady hrst hready)

theorem fireIn_of_run (h : s.pins.rst = false) :
    s.fireIn = (s.pins.inValid && (!s.outValidQ || s.pins.outReady)) := by
  rw [State.fireIn, State.firesIn, inReady_of_run h]

/-- A beat is offered exactly where `in_valid` is 1 (R112). -/
theorem inValid_of_offered {i : Instr} (h : s.offered = some i) : s.pins.inValid = true := by
  cases hv : s.pins.inValid with
  | true => rfl
  | false => rw [(offered_eq_none_iff s).mpr hv] at h; cases h

theorem step_of_run (hseen : s.resetSeen = true) (hrst : s.pins.rst = false) :
    step s = .next (s.dataEdge (s.offered.map offerOf)) := by
  rw [step_eq_clockEdge, clockEdge_of_run hrst hseen]

end Ports

section ClockStep

variable {s : State}

/-- A beat is empty exactly when `in_len` is 0 (R63, R89). -/
theorem beatOutput_decode_beatWord (len : Len) (data : Lanes) :
    beatOutput (decode (beatWord len data)) = if len = 0 then none else some (encodeGroup len data) := by
  have hempty : (decode (beatWord len data)).isEmpty = true ↔ len = 0 := by
    rw [isEmpty_iff_lenOf_encode, encode_decode, lenOf_beatWord]
  simp only [beatOutput, hempty, encode_decode, lenOf_beatWord, dataOf_beatWord]

/-- What an edge loads, from the ports: the group of a beat that fires and is not empty (R113). -/
theorem loads_offered (s : State) :
    s.loads (s.offered.map offerOf) =
      if s.fireIn && s.pins.inLen != 0 then some (encodeGroup s.pins.inLen s.pins.inData) else none := by
  cases hv : s.pins.inValid with
  | false => simp [(offered_eq_none_iff s).mpr hv, State.fireIn, State.firesIn, hv]
  | true =>
    have hoffered : s.offered = some (decode (beatWord s.pins.inLen s.pins.inData)) := by simp [State.offered, hv]
    rw [hoffered, Option.map_some, State.fireIn, hv, firesIn_true]
    cases hr : s.inReady with
    | false => simp [loads_offerOf_held hr]
    | true => simp [loads_offerOf_fire hr, beatOutput_decode_beatWord]

/-- `out_valid_q` after an edge with `rst` = 0, from the ports (R113). -/
theorem nextOutValidQ_offered (s : State) :
    s.nextOutValidQ (s.offered.map offerOf) =
      if s.fireIn && s.pins.inLen != 0 then true else if s.fireOut then false else s.outValidQ := by
  rw [State.nextOutValidQ, loads_offered]
  cases s.fireIn && s.pins.inLen != 0 <;> rfl

/-- `out_data_q` after an edge with `rst` = 0, from the ports (R113). -/
theorem nextOutDataQ_offered (s : State) :
    s.nextOutDataQ (s.offered.map offerOf) =
      if s.fireIn && s.pins.inLen != 0 then encodeGroup s.pins.inLen s.pins.inData else s.outDataQ := by
  rw [State.nextOutDataQ, loads_offered]
  cases s.fireIn && s.pins.inLen != 0 <;> rfl

/-- A step that answers a next state adds this cycle's beat to the deliveries exactly where `fire_out` is 1 (R114). -/
theorem delivered_of_step {t : State} (h : step s = .next t) :
    t.delivered = if s.fireOut then s.delivered ++ [s.outData] else s.delivered :=
  delivered_of_clockEdge ((step_eq_clockEdge s).symm.trans h)

/-- A run of one more edge is a step and then the rest of the run. -/
theorem exists_step_of_run_succ {n : Nat} {t : State} (h : core.run (n + 1) s = .next t) :
    ∃ u, step s = .next u ∧ core.run n u = .next t := by
  cases hstep : step s with
  | next u =>
    have hcore : core.step s = .next u := hstep
    exact ⟨u, rfl, by simpa only [Host.Core.run, hcore] using h⟩
  | fault f => exact nomatch f
  | refused r =>
    have hcore : core.step s = .refused r := hstep
    simp only [Host.Core.run, hcore] at h
    cases h

theorem deliveries_succ_of_next {t : State} (h : step s = .next t) (n : Nat) :
    deliveries (n + 1) s = (if s.fireOut then [s.outData] else []) ++ deliveries n t := by
  simp only [deliveries, h]

/-- Over a run the consumer receives what the edges deliver, in edge order (R114). -/
theorem delivered_of_run {n : Nat} {s t : State} (h : core.run n s = .next t) :
    t.delivered = s.delivered ++ deliveries n s := by
  induction n generalizing s with
  | zero =>
    obtain rfl : s = t := Host.Outcome.next.inj h
    exact (List.append_nil _).symm
  | succ n ih =>
    obtain ⟨u, hstep, hrun⟩ := exists_step_of_run_succ h
    rw [ih hrun, delivered_of_step hstep, deliveries_succ_of_next hstep]
    cases s.fireOut <;> simp

end ClockStep

section Runs

/-- The state after a cycle with `rst` = 0 under the pins `p`, past the first reset edge (R113). -/
def edgeUnder (p : Pins) (s : State) : State := (driven [p] s).dataEdge ((driven [p] s).offered.map offerOf)

variable {s : State} {p : Pins} {ps : List Pins}

theorem runPins_cons_edgeUnder (hrst : p.rst = false) (hseen : s.resetSeen = true) (ps : List Pins) :
    runPins (p :: ps) s = runPins ps (edgeUnder p s) :=
  runPins_cons_of_run hrst ps hseen

/-- An edge under back-pressure changes nothing but the host's cycle (R115). -/
theorem edgeUnder_of_stall (hvalid : s.outValidQ = true) (hrst : p.rst = false) (hstall : p.outReady = false) :
    edgeUnder p s = { s with cycle := s.cycle + 1 } := by
  have hrun : (driven [p] s).pins.rst = false := hrst
  have hready : (driven [p] s).inReady = false := inReady_of_stall hvalid hstall
  have hfire : (driven [p] s).fireOut = false := fireOut_of_stall hstall
  have hload := loads_of_not_inReady (o := (driven [p] s).offered.map offerOf) hready
  rw [edgeUnder, State.dataEdge, nextOutValidQ_of_not_inReady hrun hready, nextOutDataQ_of_no_load hload,
    nextTaken_offered, fireIn_of_not_inReady hready, nextReceived_of_no_fireOut hfire]
  rfl

/-- However long the back-pressure lasts, the waiting beat and the records stay (R115). -/
theorem runPins_of_stall (hseen : s.resetSeen = true) (hvalid : s.outValidQ = true)
    (hstall : ∀ p ∈ ps, p.rst = false ∧ p.outReady = false) :
    runPins ps s = .next { s with cycle := s.cycle + ps.length } := by
  induction ps generalizing s with
  | nil => rfl
  | cons p ps ih =>
    obtain ⟨⟨hrst, hready⟩, hrest⟩ := List.forall_mem_cons.mp hstall
    rw [runPins_cons_edgeUnder hrst hseen, edgeUnder_of_stall hvalid hrst hready,
      ih (s := { s with cycle := s.cycle + 1 }) hseen hvalid hrest, List.length_cons,
      Nat.add_assoc, Nat.add_comm 1]

/-- With `out_ready` = 1 an edge delivers the waiting beat, if any (R114, R127). -/
theorem received_edgeUnder_of_take (hrst : p.rst = false) (htake : p.outReady = true) :
    (edgeUnder p s).received = s.received ++ waiting s := by
  have hfire : (driven [p] s).fireOut = s.outValidQ := fireOut_of_outReady hrst htake
  cases hv : s.outValidQ with
  | true =>
    rw [waiting_of_valid hv]
    exact nextReceived_of_fireOut (hfire.trans hv)
  | false =>
    rw [waiting_of_empty hv, List.append_nil]
    exact nextReceived_of_no_fireOut (hfire.trans hv)

/-- With `out_ready` = 1 only what the edge loads waits after it (R113). -/
theorem waiting_edgeUnder_of_take (hrst : p.rst = false) (htake : p.outReady = true) :
    waiting (edgeUnder p s) = ((driven [p] s).loads ((driven [p] s).offered.map offerOf)).toList := by
  have hfire : (driven [p] s).fireOut = s.outValidQ := fireOut_of_outReady hrst htake
  rw [edgeUnder, waiting_dataEdge (s := driven [p] s) hrst, hfire]
  cases hv : s.outValidQ with
  | true => rfl
  | false => simp [waiting_of_empty hv]

/-- An idle cycle with `out_ready` = 1 leaves nothing waiting (R113). -/
theorem outValidQ_edgeUnder_idle (s : State) : (edgeUnder (pinsIdle true) s).outValidQ = false := by
  have hwaiting : waiting (edgeUnder (pinsIdle true) s) = [] := waiting_edgeUnder_of_take rfl rfl
  simpa [waiting] using hwaiting

/-- At full rate the offered beat is taken in its cycle, and its output waits (R113, R116). -/
theorem edgeUnder_offer (i : Instr) (s : State) :
    (edgeUnder (pinsOffer (encode i) true) s).taken = s.taken ++ [i] ∧
    (edgeUnder (pinsOffer (encode i) true) s).received = s.received ++ waiting s ∧
    waiting (edgeUnder (pinsOffer (encode i) true) s) = streamOutput [i] := by
  have hready : (driven [pinsOffer (encode i) true] s).inReady = true := inReady_of_outReady rfl rfl
  have hoffered : (driven [pinsOffer (encode i) true] s).offered = some i := offered_offer i (decode_encode i) true [] s
  refine ⟨?_, received_edgeUnder_of_take rfl rfl, ?_⟩
  · rw [edgeUnder, hoffered]
    exact nextTaken_offerOf_fire hready
  · rw [waiting_edgeUnder_of_take rfl rfl, hoffered, streamOutput_singleton]
    exact congrArg Option.toList (loads_offerOf_fire hready)

/-- At full rate every offered beat is taken in its cycle, and their outputs queue up behind the waiting beat (R116). -/
theorem exists_runPins_offers (beats : List Instr) (hseen : s.resetSeen = true) :
    ∃ t, runPins (beats.map fun i => pinsOffer (encode i) true) s = .next t ∧ t.resetSeen = true ∧
      t.taken = s.taken ++ beats ∧ t.received ++ waiting t = s.received ++ waiting s ++ streamOutput beats := by
  induction beats generalizing s with
  | nil => exact ⟨s, rfl, hseen, (List.append_nil _).symm, (List.append_nil _).symm⟩
  | cons i beats ih =>
    obtain ⟨htaken, hreceived, hwaiting⟩ := edgeUnder_offer i s
    obtain ⟨t, hrun, hseen', htaken', hqueue⟩ := ih (s := edgeUnder (pinsOffer (encode i) true) s) hseen
    refine ⟨t, ?_, hseen', ?_, ?_⟩
    · rw [List.map_cons, runPins_cons_edgeUnder rfl hseen, hrun]
    · rw [htaken', htaken, List.append_assoc, List.singleton_append]
    · rw [hqueue, hreceived, hwaiting, List.append_assoc _ (streamOutput [i]), ← streamOutput_append,
        List.singleton_append]

/-- A cycle after a run that completed: one more edge (R113). -/
theorem runPins_concat {t : State} (hrun : runPins ps s = .next t) (hrst : p.rst = false) (hseen : t.resetSeen = true) :
    runPins (ps ++ [p]) s = .next (edgeUnder p t) := by
  rw [runPins_append ps [p] s t hrun, runPins_cons_edgeUnder hrst hseen, runPins_nil]

/-- Past the first reset edge a run with `rst` = 0 completes and keeps the order of R117. -/
theorem exists_runPins_streamOrdered (hs : StreamOrdered s) (hseen : s.resetSeen = true)
    (hrst : ∀ p ∈ ps, p.rst = false) :
    ∃ t, runPins ps s = .next t ∧ t.resetSeen = true ∧ StreamOrdered t := by
  induction ps generalizing s with
  | nil => exact ⟨s, rfl, hseen, hs⟩
  | cons p ps ih =>
    obtain ⟨hp, hrest⟩ := List.forall_mem_cons.mp hrst
    rw [runPins_cons_edgeUnder hp hseen]
    exact ih (streamOrdered_dataEdge (s := driven [p] s) hs hp hseen _) hseen hrest

/-- A run of one cycle is a step. -/
theorem runPins_singleton (p : Pins) (s : State) : runPins [p] s = step (driven [p] s) := by
  have hcore : core.step (driven [p] s) = step (driven [p] s) := rfl
  simp only [runPins, List.length_singleton, Host.Core.run]
  rw [hcore]
  cases step (driven [p] s) <;> rfl

/-- The data pins of a cycle with `in_valid` = 0 have no effect: its edge reads `rst` and `out_ready` only (R112). -/
theorem runPins_idle_congr (s : State) (p : Pins) (len : Len) (data : Lanes) (hidle : p.inValid = false) :
    runPins [p] s = runPins [{ p with inLen := len, inData := data }] s := by
  have hp : (driven [p] s).offered = none := (offered_eq_none_iff _).mpr hidle
  have hq : (driven [{ p with inLen := len, inData := data }] s).offered = none := (offered_eq_none_iff _).mpr hidle
  rw [runPins_singleton, runPins_singleton, step_eq_clockEdge, step_eq_clockEdge, hp, hq]
  rfl

end Runs

section PlacedWord

variable (s : State) (w : Nat)

/-- The number of a beat word decodes to the word's operation (R60). -/
theorem decodeTableWord_eq : decodeTableWord 26 w = some (decode (BitVec.ofNat 26 (w % 2 ^ 26))) := by
  have hw : isBeatWord (w % 2 ^ 26) = true := by simpa [isBeatWord] using Nat.mod_lt w (by decide : 0 < 2 ^ 26)
  rw [decodeTableWord, decodeNumber, if_pos hw]

/-- The placed word is offered in a running cycle past the first reset edge, with `out_ready` = 1 (log entry 7). -/
theorem offered_placeBeat (w : BeatWord) : (s.placeBeat w).offered = some (decode w) := by
  have hpins : (s.placeBeat w).pins = pinsOffer w true := rfl
  simp [State.offered, hpins, pinsOffer, beatWord_lenOf_dataOf]

theorem inReady_placeBeat (w : BeatWord) : (s.placeBeat w).inReady = true := inReady_of_outReady rfl rfl

end PlacedWord

/-! ### The obligations -/

/-- Settles O19: the equation is the port's definition, and it names `rst`, `out_valid_q` and `out_ready` only. -/
theorem inReadyEquation : Obligations.InReadyEquation :=
  ⟨fun _ _ => rfl, fun _ _ _ _ => inReady_congr⟩

/-- Settles O20: the equations are the ports' definitions, which name `rst` and the registers only. -/
theorem outputPortEquations : Obligations.OutputPortEquations :=
  ⟨fun _ _ => ⟨rfl, rfl, outBeat_eq_none_iff, outBeat_of_outValid⟩,
    fun _ _ _ _ hrst hvalid hdata =>
      have hv := outValid_congr hrst hvalid
      ⟨hv, hdata, outBeat_congr hv hdata⟩⟩

/-- Settles O21: both fires are definitions, and an idle edge offers no operation. -/
theorem firesNeedBothSidesAndIdleDataIsIgnored : Obligations.FiresNeedBothSidesAndIdleDataIsIgnored :=
  ⟨fun _ _ => ⟨rfl, rfl⟩, runPins_idle_congr⟩

/-- Settles O23: a reset edge, or a data edge that loads the group on the ports where it fires and is not empty. -/
theorem clockEdgeUpdatesTheRegisters : Obligations.ClockEdgeUpdatesTheRegisters := by
  intro s hrules
  cases hrst : s.pins.rst with
  | true => exact ⟨s.resetEdge, step_of_rst hrst, fun _ => ⟨rfl, rfl⟩, fun h => Bool.noConfusion h⟩
  | false =>
    have hseen : s.resetSeen = true := hrules.resolve_right (by simp [hrst])
    refine ⟨_, step_of_run hseen hrst, fun h => absurd h Bool.false_ne_true, fun _ => ?_⟩
    rw [← fireIn_of_run hrst, ← fireOut_of_run hrst]
    exact ⟨nextOutValidQ_offered s, nextOutDataQ_offered s⟩

/-- Settles O24: one edge, and by induction on the number of edges. -/
theorem deliveryIsAtFireOutEdges : Obligations.DeliveryIsAtFireOutEdges :=
  ⟨fun _ _ => delivered_of_step, fun _ _ _ => delivered_of_run⟩

/-- Settles O26: a stalled stage is not ready and delivers nothing, at each of any number of edges. -/
theorem waitingBeatIsHeldUnderBackPressure : Obligations.WaitingBeatIsHeldUnderBackPressure := by
  refine ⟨fun s _ _ hvalid hstall => ?_, fun s ps hseen hvalid hstall => ?_⟩
  · have hready := inReady_of_stall hvalid hstall
    exact ⟨hready, fireIn_of_not_inReady hready, fireOut_of_stall hstall⟩
  · exact ⟨_, runPins_of_stall hseen hvalid hstall, hvalid, rfl, rfl, rfl, rfl⟩

/-- Settles O27: with `out_ready` = 1 the stage is ready, so an edge delivers what waits and loads the offered
beat's output. -/
theorem fullThroughput : Obligations.FullThroughput := by
  refine ⟨fun s i hseen hrst hvalid htake hoffered hne => ?_, fun s beats last hseen => ?_⟩
  · have hready := inReady_of_outReady hrst htake
    have hfireOut : s.fireOut = true := (fireOut_of_outReady hrst htake).trans hvalid
    obtain ⟨d, hd⟩ := exists_beatOutput hne
    have hload : s.loads (s.offered.map offerOf) = some d := by
      rw [hoffered]; exact (loads_offerOf_fire hready).trans hd
    refine ⟨?_, hfireOut, _, step_of_run hseen hrst, nextOutValidQ_of_loads hload, ?_,
      nextReceived_of_fireOut hfireOut⟩
    · rw [State.fireIn, inValid_of_offered hoffered, firesIn_true, hready]
    · rw [hd, dataEdge_outDataQ, nextOutDataQ_of_loads hload]
  · obtain ⟨t, hrun, hseen', htaken, hqueue⟩ := exists_runPins_offers beats hseen
    obtain ⟨htaken', hreceived, hwaiting⟩ := edgeUnder_offer last t
    refine ⟨edgeUnder (pinsOffer (encode last) true) t, ?_, ?_, hreceived.trans hqueue, hwaiting⟩
    · rw [List.map_append]
      exact runPins_concat hrun rfl hseen'
    · rw [htaken', htaken]

/-- Settles O47: the placed word is offered in a cycle in which the stage is ready. -/
theorem placedWordRunsNext : Obligations.PlacedWordRunsNext := by
  intro s w _
  have hoffered := offered_placeBeat s (BitVec.ofNat 26 (w % 2 ^ 26))
  have hready := inReady_placeBeat s (BitVec.ofNat 26 (w % 2 ^ 26))
  refine ⟨_, decodeTableWord_eq w, ?_, ?_, _, step_of_run rfl rfl, ?_⟩
  · simp only [step, State.withFetchWord, hoffered]
  · exact (firesIn_true (s := s.withFetchWord 26 w)).trans hready
  · rw [dataEdge_taken, State.withFetchWord, hoffered]
    exact nextTaken_offerOf_fire hready

end Sys2Proof.Machine
end

section
/-! The family 41_stream_framing.md, second part: the host's framing (R118), the string it obtains
(R120 to R123, R125), a broken framing (R124), and the stage as the map of `ENCODE_GROUP` (R117, R127). -/

namespace Sys2Proof.Machine

/-! ### Laws -/

section Framing

/-- A group of three bytes at the front is a beat of its own (R118). -/
@[simp] theorem frame_cons_cons_cons (a b c : Byte) (rest : List Byte) :
    frame (a :: b :: c :: rest) = .enc3 a b c :: frame rest := rfl

/-- There are `ceil(n/3)` beats (R118). -/
theorem length_frame (bytes : List Byte) : (frame bytes).length = (bytes.length + 2) / 3 := by
  induction bytes using frame.induct with
  | case1 => rfl
  | case2 a => simp [frame]
  | case3 a b => simp [frame]
  | case4 a b c rest ih => simp only [frame_cons_cons_cons, List.length_cons, ih]; omega

/-- No beat of the framing is empty (R118). -/
theorem isEmpty_of_mem_frame {bytes : List Byte} : ∀ i ∈ frame bytes, i.isEmpty = false := by
  induction bytes using frame.induct with
  | case1 => exact fun _ h => absurd h List.not_mem_nil
  | case2 a => exact List.forall_mem_singleton.mpr rfl
  | case3 a b => exact List.forall_mem_singleton.mpr rfl
  | case4 a b c rest ih => exact List.forall_mem_cons.mpr ⟨rfl, ih⟩

theorem filter_frame (bytes : List Byte) : (frame bytes).filter (fun i => !i.isEmpty) = frame bytes :=
  List.filter_eq_self.mpr fun i hi => by rw [isEmpty_of_mem_frame i hi]; rfl

/-- A full beat in front keeps the framing duty, whatever follows (R118). -/
theorem framedBeats_enc3_cons (a b c : Byte) (beats : List Instr) :
    framedBeats (.enc3 a b c :: beats) = framedBeats beats := by
  cases beats <;> rfl

theorem framedBeats_frame (bytes : List Byte) : framedBeats (frame bytes) = true := by
  induction bytes using frame.induct with
  | case1 => rfl
  | case2 a => rfl
  | case3 a b => rfl
  | case4 a b c rest ih => rw [frame_cons_cons_cons, framedBeats_enc3_cons, ih]

theorem wellFramed_frame (bytes : List Byte) : wellFramed (frame bytes) = true := by
  rw [wellFramed, filter_frame, framedBeats_frame]

/-- A NOP may stand anywhere (R118, R89). -/
theorem wellFramed_nop_middle (xs ys : List Instr) (x : BitVec 24) :
    wellFramed (xs ++ .nop x :: ys) = wellFramed (xs ++ ys) := by
  simp only [wellFramed, List.filter_append]
  rfl

/-- The beat `i` carries the bytes of `bytes` from `3 * j` on, as many as its length says (R118). -/
def CarriesGroup (bytes : List Byte) (j : Nat) (i : Instr) : Prop :=
  (lenOf (encode i)).toNat = min 3 (bytes.length - 3 * j) ∧
  bytes[3 * j]? = some (laneA (dataOf (encode i))) ∧
  (2 ≤ (lenOf (encode i)).toNat → bytes[3 * j + 1]? = some (laneB (dataOf (encode i)))) ∧
  ((lenOf (encode i)).toNat = 3 → bytes[3 * j + 2]? = some (laneC (dataOf (encode i))))

/-- A group of three bytes in front moves the other groups on by one (R118). -/
theorem carriesGroup_succ {rest : List Byte} {j : Nat} {i : Instr} (a b c : Byte) (h : CarriesGroup rest j i) :
    CarriesGroup (a :: b :: c :: rest) (j + 1) i := by
  obtain ⟨hlen, ha, hb, hc⟩ := h
  refine ⟨?_, ha, hb, hc⟩
  rw [hlen]
  simp only [List.length_cons]
  omega

theorem carriesGroup_enc3 (a b c : Byte) (rest : List Byte) :
    CarriesGroup (a :: b :: c :: rest) 0 (.enc3 a b c) := by
  simp [CarriesGroup, lenOf_encode, dataOf_encode]

theorem carriesGroup_enc2 (a b : Byte) : CarriesGroup [a, b] 0 (.enc2 a b 0) := by
  simp [CarriesGroup, lenOf_encode, dataOf_encode]

theorem carriesGroup_enc1 (a : Byte) : CarriesGroup [a] 0 (.enc1 a 0) := by
  simp [CarriesGroup, lenOf_encode, dataOf_encode]

theorem carriesGroup_of_getElem?_frame {bytes : List Byte} {j : Nat} {i : Instr} (h : (frame bytes)[j]? = some i) :
    CarriesGroup bytes j i := by
  induction bytes using frame.induct generalizing j with
  | case1 => cases h
  | case2 a =>
    cases j with
    | zero => obtain rfl := Option.some.inj h; exact carriesGroup_enc1 a
    | succ j => cases h
  | case3 a b =>
    cases j with
    | zero => obtain rfl := Option.some.inj h; exact carriesGroup_enc2 a b
    | succ j => cases h
  | case4 a b c rest ih =>
    cases j with
    | zero => obtain rfl := Option.some.inj h; exact carriesGroup_enc3 a b c rest
    | succ j => exact carriesGroup_succ a b c (ih h)

/-- A whole number of groups in front splits off (R123). -/
theorem frame_append {b1 : List Byte} (b2 : List Byte) (h : b1.length % 3 = 0) :
    frame (b1 ++ b2) = frame b1 ++ frame b2 := by
  induction b1 using frame.induct with
  | case1 => rfl
  | case2 a => cases h
  | case3 a b => cases h
  | case4 a b c rest ih =>
    have hrest : rest.length % 3 = 0 := by simp only [List.length_cons] at h; omega
    simp only [List.cons_append, frame_cons_cons_cons, ih hrest]

/-- A whole number of groups gives full beats only (R123). -/
theorem isShort_of_mem_frame {bytes : List Byte} (h : bytes.length % 3 = 0) :
    ∀ i ∈ frame bytes, i.isShort = false := by
  induction bytes using frame.induct with
  | case1 => exact fun _ h => absurd h List.not_mem_nil
  | case2 a => cases h
  | case3 a b => cases h
  | case4 a b c rest ih =>
    have hrest : rest.length % 3 = 0 := by simp only [List.length_cons] at h; omega
    exact List.forall_mem_cons.mpr ⟨rfl, ih hrest⟩

/-- Beats that keep the framing duty are, but for their ignored lanes, the framing of some bytes (R118). -/
theorem exists_frame_of_framedBeats {beats : List Instr} (h : framedBeats beats = true) :
    ∃ bytes, beats.map Instr.plain = frame bytes := by
  induction beats using framedBeats.induct with
  | case1 => exact ⟨[], rfl⟩
  | case2 i =>
    cases i with
    | enc3 a b c => exact ⟨[a, b, c], rfl⟩
    | enc2 a b x => exact ⟨[a, b], rfl⟩
    | enc1 a x => exact ⟨[a], rfl⟩
    | nop x => cases h
  | case3 i j rest ih =>
    cases i with
    | enc3 a b c =>
      obtain ⟨bytes, hbytes⟩ := ih h
      exact ⟨a :: b :: c :: bytes, congrArg _ hbytes⟩
    | enc2 a b x => cases h
    | enc1 a x => cases h
    | nop x => cases h

end Framing

section Strings

/-- The empty beats of a sequence have no output (R89, R117). -/
theorem streamOutput_filter (beats : List Instr) :
    streamOutput (beats.filter fun i => !i.isEmpty) = streamOutput beats := by
  induction beats with
  | nil => rfl
  | cons i beats ih =>
    cases h : i.isEmpty with
    | true => simpa [streamOutput, beatOutput, h] using ih
    | false => simpa [streamOutput, beatOutput, h] using ih

theorem streamOutput_map_plain (beats : List Instr) : streamOutput (beats.map Instr.plain) = streamOutput beats := by
  rw [streamOutput, List.filterMap_map]
  exact List.filterMap_congr fun i _ => beatOutput_plain i

/-- Beats that are the framing of some bytes, NOPs and ignored lanes apart, give the bytes' string (R118, R120). -/
theorem joinBeats_streamOutput_of_frame {beats : List Instr} {bytes : List Byte}
    (h : (beats.filter fun i => !i.isEmpty).map Instr.plain = frame bytes) :
    joinBeats (streamOutput beats) = encodeBytes bytes := by
  rw [encodeBytes, ← h, streamOutput_map_plain, streamOutput_filter]

theorem beatOutput_of_not_isEmpty {i : Instr} (h : i.isEmpty = false) :
    beatOutput i = some (encodeGroup (lenOf (encode i)) (dataOf (encode i))) := by
  simp [beatOutput, h]

theorem streamOutput_cons {i : Instr} {d : OutBeat} (h : beatOutput i = some d) (beats : List Instr) :
    streamOutput (i :: beats) = d :: streamOutput beats :=
  List.filterMap_cons_some h

/-- The output of a beat in front comes first in the string (R119). -/
theorem joinBeats_streamOutput_cons {i : Instr} {d : OutBeat} (h : beatOutput i = some d) (beats : List Instr) :
    joinBeats (streamOutput (i :: beats)) = chars d ++ joinBeats (streamOutput beats) := by
  rw [streamOutput_cons h]
  rfl

/-- Beats that are not empty have one output beat each (R117). -/
theorem length_streamOutput {beats : List Instr} (h : ∀ i ∈ beats, i.isEmpty = false) :
    (streamOutput beats).length = beats.length := by
  induction beats with
  | nil => rfl
  | cons i beats ih =>
    obtain ⟨hi, hrest⟩ := List.forall_mem_cons.mp h
    rw [streamOutput_cons (beatOutput_of_not_isEmpty hi), List.length_cons, List.length_cons, ih hrest]

theorem length_streamOutput_frame (bytes : List Byte) : (streamOutput (frame bytes)).length = (frame bytes).length :=
  length_streamOutput isEmpty_of_mem_frame

/-- Four characters for each group (R121). -/
theorem length_encodeBytes (bytes : List Byte) : (encodeBytes bytes).length = 4 * ((bytes.length + 2) / 3) := by
  rw [encodeBytes, joinBeats_length, length_streamOutput_frame, length_frame]

/-- A whole number of groups in front is encoded by itself (R123). -/
theorem encodeBytes_append {b1 : List Byte} (b2 : List Byte) (h : b1.length % 3 = 0) :
    encodeBytes (b1 ++ b2) = encodeBytes b1 ++ encodeBytes b2 := by
  simp only [encodeBytes, frame_append b2 h, streamOutput_append, joinBeats_append]

theorem encodeBytes_one (a : Byte) : encodeBytes [a] = chars (encodeGroup 1 (a ++ (0 : BitVec 16) : BitVec 24)) :=
  (joinBeats_streamOutput_cons (beatOutput_enc1 a 0) []).trans (List.append_nil _)

theorem encodeBytes_two (a b : Byte) :
    encodeBytes [a, b] = chars (encodeGroup 2 (a ++ b ++ (0 : BitVec 8) : BitVec 24)) :=
  (joinBeats_streamOutput_cons (beatOutput_enc2 a b 0) []).trans (List.append_nil _)

theorem encodeBytes_three_cons (a b c : Byte) (rest : List Byte) :
    encodeBytes (a :: b :: c :: rest) = chars (encodeGroup 3 (a ++ b ++ c : BitVec 24)) ++ encodeBytes rest :=
  joinBeats_streamOutput_cons (beatOutput_enc3 a b c) (frame rest)

/-- Encoding makes every non-empty byte sequence longer (R121, R125). -/
theorem length_lt_length_encodeBytes {bytes : List Byte} (h : bytes ≠ []) :
    bytes.length < (encodeBytes bytes).length := by
  have hpos := List.length_pos_iff.mpr h
  rw [length_encodeBytes]
  omega

end Strings

section StandardBase64

/-- The character of slot `k` is the packed value's digit `k` to base 64 (R83, R84). -/
theorem lut_slotIndex (k : Fin 4) (tot : Lanes) :
    lut (slotIndex k tot) = base64Char (tot.toNat / 2 ^ (18 - 6 * k.val) % 64) := by
  rw [lut_eq_base64Char, toNat_slotIndex]

/-- A group's string is the packed value to base 64, with `PAD` in the slots of absent bytes (R83 to R85). -/
theorem chars_encodeGroup {len : Len} {data : Lanes} {n : Nat} (h : (packedValue len data).toNat = n) :
    chars (encodeGroup len data) =
      [base64Char (n / 262144 % 64), base64Char (n / 4096 % 64), padSelect (bPresent len) (base64Char (n / 64 % 64)),
        padSelect (cPresent len) (base64Char (n % 64))] := by
  subst h
  rw [encodeGroup, chars_outBeatOf, lut_slotIndex, lut_slotIndex, lut_slotIndex, lut_slotIndex]
  norm_num

theorem toNat_packedValue_three (a b c : Byte) :
    (packedValue 3 (a ++ b ++ c : BitVec 24)).toNat = (a.toNat * 256 + b.toNat) * 256 + c.toNat := by
  rw [packedValue_three, toNat_append_bytes]
  omega

theorem toNat_packedValue_two (a b x : Byte) :
    (packedValue 2 (a ++ b ++ x : BitVec 24)).toNat = (a.toNat * 256 + b.toNat) * 4 * 64 := by
  have habsent : (0 : Byte).toNat = 0 := rfl
  rw [(packedValueHasTheMaskedLanes 2 _ (by decide)).2, laneA_append, laneB_append, if_pos (by decide),
    if_neg (by decide), habsent]
  omega

theorem toNat_packedValue_one (a : Byte) (x : BitVec 16) :
    (packedValue 1 (a ++ x : BitVec 24)).toNat = a.toNat * 16 * 4096 := by
  have habsent : (0 : Byte).toNat = 0 := rfl
  rw [(packedValueHasTheMaskedLanes 1 _ (by decide)).2, laneA_append_pair, if_neg (by decide), if_neg (by decide),
    habsent]
  omega

/-- The stage and its host give standard Base64 (R120). -/
theorem encodeBytes_eq_base64 (bytes : List Byte) : encodeBytes bytes = base64 bytes := by
  induction bytes using frame.induct with
  | case1 => rfl
  | case2 a =>
    have ha := a.isLt
    have h0 : a.toNat * 16 * 4096 / 262144 % 64 = a.toNat * 16 / 64 := by omega
    have h1 : a.toNat * 16 * 4096 / 4096 % 64 = a.toNat * 16 % 64 := by omega
    rw [encodeBytes_one, chars_encodeGroup (toNat_packedValue_one a 0), h0, h1]
    rfl
  | case3 a b =>
    have ha := a.isLt
    have hb := b.isLt
    have h0 : (a.toNat * 256 + b.toNat) * 4 * 64 / 262144 % 64 = (a.toNat * 256 + b.toNat) * 4 / 4096 := by omega
    have h1 : (a.toNat * 256 + b.toNat) * 4 * 64 / 4096 % 64 = (a.toNat * 256 + b.toNat) * 4 / 64 % 64 := by omega
    have h2 : (a.toNat * 256 + b.toNat) * 4 * 64 / 64 % 64 = (a.toNat * 256 + b.toNat) * 4 % 64 := by omega
    rw [encodeBytes_two, chars_encodeGroup (toNat_packedValue_two a b 0), h0, h1, h2]
    rfl
  | case4 a b c rest ih =>
    have ha := a.isLt
    have hb := b.isLt
    have hc := c.isLt
    have h0 : ((a.toNat * 256 + b.toNat) * 256 + c.toNat) / 262144 % 64 =
        ((a.toNat * 256 + b.toNat) * 256 + c.toNat) / 262144 := by omega
    rw [encodeBytes_three_cons, chars_encodeGroup (toNat_packedValue_three a b c), h0, ih]
    rfl

end StandardBase64

section Padding

/-- After a padding character only padding characters follow (R122). -/
def PadsOnlyAtEnd (string : List Byte) : Prop := ∀ u v, string = u ++ pad :: v → ∀ ch ∈ v, ch = pad

theorem PadsOnlyAtEnd.of_append {x y : List Byte} (h : PadsOnlyAtEnd (x ++ y)) : PadsOnlyAtEnd y :=
  fun u v hy => h (x ++ u) v (by rw [hy, List.append_assoc])

theorem padsOnlyAtEnd_append_replicate {body : List Byte} (k : Nat) (h : pad ∉ body) :
    PadsOnlyAtEnd (body ++ List.replicate k pad) := by
  intro u v huv
  have hmem : ∀ ch ∈ List.replicate k pad, ch = pad := fun _ => List.eq_of_mem_replicate
  rcases List.append_eq_append_iff.mp huv with ⟨x, _, hx⟩ | ⟨x, hx, hv⟩
  · rw [hx, List.forall_mem_append, List.forall_mem_cons] at hmem
    exact hmem.2.2
  · cases x with
    | nil =>
      rw [← List.nil_append (List.replicate k pad), ← hv, List.forall_mem_cons] at hmem
      exact hmem.2
    | cons ch x =>
      have hch : pad = ch := (List.cons.inj hv).1
      exact absurd (by rw [hx, hch]; simp) h

/-- The padding of a byte sequence's string is its suffix (R122). -/
theorem exists_body_encodeBytes (bytes : List Byte) :
    ∃ body, encodeBytes bytes = body ++ List.replicate ((3 - bytes.length % 3) % 3) pad ∧ pad ∉ body := by
  have hne : ∀ i : Index, pad ≠ lut i := fun i h => lut_ne_pad i h.symm
  induction bytes using frame.induct with
  | case1 => exact ⟨[], rfl, List.not_mem_nil⟩
  | case2 a =>
    rw [encodeBytes_one, encodeGroup_one, chars_outBeatOf]
    exact ⟨[_, _], rfl, by simp [hne]⟩
  | case3 a b =>
    rw [encodeBytes_two, encodeGroup_two, chars_outBeatOf]
    exact ⟨[_, _, _], rfl, by simp [hne]⟩
  | case4 a b c rest ih =>
    obtain ⟨body, hbody, hpad⟩ := ih
    have hlen : (a :: b :: c :: rest).length % 3 = rest.length % 3 := by simp only [List.length_cons]; omega
    rw [encodeBytes_three_cons, encodeGroup_three, chars_outBeatOf, hbody, hlen, ← List.append_assoc]
    exact ⟨_, rfl, by simp [hne, hpad]⟩

theorem padsOnlyAtEnd_encodeBytes (bytes : List Byte) : PadsOnlyAtEnd (encodeBytes bytes) := by
  obtain ⟨body, hbody, hpad⟩ := exists_body_encodeBytes bytes
  rw [hbody]
  exact padsOnlyAtEnd_append_replicate _ hpad

/-- A short beat's output ends in padding (R87, R88, R90). -/
theorem exists_beatOutput_of_isShort {i : Instr} (h : i.isShort = true) :
    ∃ d u, beatOutput i = some d ∧ chars d = u ++ [pad] := by
  cases i with
  | enc2 a b x => exact ⟨_, [_, _, _], beatOutput_enc2 a b x, by rw [encodeGroup_two, chars_outBeatOf]; rfl⟩
  | enc1 a x => exact ⟨_, [_, _, _], beatOutput_enc1 a x, by rw [encodeGroup_one, chars_outBeatOf]; rfl⟩
  | enc3 a b c => cases h
  | nop x => cases h

/-- Every output beat begins with an alphabet character (R85). -/
theorem exists_mem_chars_ne_pad {i : Instr} (h : i.isEmpty = false) :
    ∃ d, beatOutput i = some d ∧ ∃ ch ∈ chars d, ch ≠ pad := by
  refine ⟨_, beatOutput_of_not_isEmpty h, _, List.mem_cons_self, ?_⟩
  rw [slotChar_zero_encodeGroup]
  exact lut_ne_pad _

theorem exists_mem_encodeBytes_ne_pad {bytes : List Byte} (h : bytes ≠ []) : ∃ ch ∈ encodeBytes bytes, ch ≠ pad := by
  have hlen : 0 < (frame bytes).length := by
    rw [length_frame]
    have := List.length_pos_iff.mpr h
    omega
  obtain ⟨i, beats, hframe⟩ := List.exists_cons_of_length_pos hlen
  have hi : i ∈ frame bytes := by rw [hframe]; exact List.mem_cons_self
  obtain ⟨d, hd, ch, hch, hne⟩ := exists_mem_chars_ne_pad (isEmpty_of_mem_frame i hi)
  refine ⟨ch, ?_, hne⟩
  rw [encodeBytes, hframe, joinBeats_streamOutput_cons hd]
  exact List.mem_append_left _ hch

/-- A short beat before a beat that is not empty puts padding before an alphabet character (R124). -/
theorem exists_pad_before_char (xs ys zs : List Instr) {i j : Instr} (hi : i.isShort = true) (hj : j.isEmpty = false) :
    ∃ (u v : List Byte) (ch : Byte), ch ∈ v ∧ ch ≠ pad ∧
      joinBeats (streamOutput (xs ++ i :: ys ++ j :: zs)) = u ++ pad :: v := by
  obtain ⟨d, u, hd, hu⟩ := exists_beatOutput_of_isShort hi
  obtain ⟨e, he, ch, hch, hne⟩ := exists_mem_chars_ne_pad hj
  refine ⟨joinBeats (streamOutput xs) ++ u,
    joinBeats (streamOutput ys) ++ (chars e ++ joinBeats (streamOutput zs)), ch, by simp [hch], hne, ?_⟩
  rw [streamOutput_append, joinBeats_append, streamOutput_append, joinBeats_append, joinBeats_streamOutput_cons hd,
    joinBeats_streamOutput_cons he, hu]
  simp only [List.append_assoc, List.cons_append, List.nil_append]

/-- Beats whose string has its padding at the end only keep the framing duty (R124). -/
theorem framedBeats_of_padsOnlyAtEnd {beats : List Instr} (hne : ∀ i ∈ beats, i.isEmpty = false)
    (h : PadsOnlyAtEnd (joinBeats (streamOutput beats))) : framedBeats beats = true := by
  induction beats using framedBeats.induct with
  | case1 => rfl
  | case2 i => rw [framedBeats, hne i (List.mem_singleton_self i)]; rfl
  | case3 i j rest ih =>
    obtain ⟨hi, hrest⟩ := List.forall_mem_cons.mp hne
    have hnotShort : i.isShort = false := by
      rw [← Bool.not_eq_true]
      intro hshort
      obtain ⟨u, v, ch, hch, hchar, huv⟩ := exists_pad_before_char [] [] rest hshort (hrest j List.mem_cons_self)
      exact hchar (h u v huv ch hch)
    rw [joinBeats_streamOutput_cons (beatOutput_of_not_isEmpty hi)] at h
    rw [framedBeats, hi, hnotShort, ih hrest h.of_append]
    rfl

end Padding

/-! ### The obligations -/

/-- Settles O28: the order of R117 holds after the reset edge with nothing taken, and the run keeps it. -/
theorem stageMapsEncodeGroupOverBeats : Obligations.StageMapsEncodeGroupOverBeats := by
  intro s ps hseen hempty htaken hreceived hrst
  have hs : StreamOrdered s := fun _ => by rw [htaken, hreceived, waiting_of_empty hempty]; rfl
  obtain ⟨t, hrun, hseen', hordered⟩ := exists_runPins_streamOrdered hs hseen hrst
  have horder := hordered hseen'
  refine ⟨t, hrun, horder.symm, fun h => ?_, ?_, (streamOutput_filter t.taken).symm⟩
  · rw [horder, waiting_of_empty h, List.append_nil]
  · cases hv : t.outValidQ with
    | true => exact .inr ⟨by rw [horder, waiting_of_valid hv, List.length_append, List.length_singleton], rfl⟩
    | false => exact .inl (by rw [horder, waiting_of_empty hv, List.append_nil])

/-- Settles O33: by induction on the groups of three. -/
theorem framingSplitsIntoGroupsOfThree : Obligations.FramingSplitsIntoGroupsOfThree :=
  fun bytes => ⟨length_frame bytes, fun _ _ => carriesGroup_of_getElem?_frame, wellFramed_frame bytes,
    fun xs ys x h => by rw [wellFramed_nop_middle, h, wellFramed_frame]⟩

/-- Settles O34: the order of R117 with nothing waiting, and a run at full rate with an idle cycle at its end. -/
theorem hostObtainsStandardBase64 : Obligations.HostObtainsStandardBase64 := by
  refine ⟨fun s bytes hordered hseen hempty hframe => ?_, fun s bytes hseen hempty hreceived => ?_⟩
  · have horder : streamOutput s.taken = s.received := by
      rw [hordered hseen, waiting_of_empty hempty, List.append_nil]
    rw [← horder, joinBeats_streamOutput_of_frame hframe, encodeBytes_eq_base64]
  · obtain ⟨t, hrun, hseen', -, hqueue⟩ := exists_runPins_offers (frame bytes) hseen
    rw [hreceived, waiting_of_empty hempty] at hqueue
    refine ⟨edgeUnder (pinsIdle true) t, runPins_concat hrun rfl hseen', outValidQ_edgeUnder_idle t, ?_, ?_⟩
    · rw [received_edgeUnder_of_take rfl rfl, hqueue, ← encodeBytes_eq_base64]
      rfl
    · rw [fullRate, List.length_append, List.length_map, length_frame, List.length_singleton]

/-- Settles O35: four characters for each beat of the framing. -/
theorem outputLengthIsFourPerGroup : Obligations.OutputLengthIsFourPerGroup := ⟨rfl, length_encodeBytes⟩

/-- Settles O36: only the last group has padding, at its end. -/
theorem paddingIsASuffix : Obligations.PaddingIsASuffix := exists_body_encodeBytes

/-- Settles O37: whole groups split off, and a split elsewhere would leave padding before the second string. -/
theorem splitsConcatenateAtMultiplesOfThree : Obligations.SplitsConcatenateAtMultiplesOfThree := by
  refine fun b1 b2 => ⟨fun h => ⟨encodeBytes_append b2 h, frame_append b2 h,
    fun i hi => ⟨isShort_of_mem_frame h i hi, isEmpty_of_mem_frame i hi⟩⟩, fun h hne heq => ?_⟩
  obtain ⟨body, hbody, -⟩ := exists_body_encodeBytes b1
  obtain ⟨k, hk⟩ : ∃ k, (3 - b1.length % 3) % 3 = k + 1 := Nat.exists_eq_add_one.mpr (by omega)
  obtain ⟨ch, hch, hchar⟩ := exists_mem_encodeBytes_ne_pad hne
  rw [hbody, hk, List.replicate_succ, List.append_assoc, List.cons_append] at heq
  exact hchar (padsOnlyAtEnd_encodeBytes _ _ _ heq ch (List.mem_append_right _ hch))

/-- Settles O38: framed beats are some bytes' framing but for ignored lanes, and a broken duty pads in mid-string. -/
theorem brokenFramingPadsMidString : Obligations.BrokenFramingPadsMidString := by
  refine ⟨fun xs ys zs _ _ => exists_pad_before_char xs ys zs, fun beats => ⟨fun h => ?_, fun ⟨bytes, hbytes⟩ => ?_⟩⟩
  · obtain ⟨bytes, hbytes⟩ := exists_frame_of_framedBeats h
    exact ⟨bytes, joinBeats_streamOutput_of_frame hbytes⟩
  · refine framedBeats_of_padsOnlyAtEnd (fun i hi => ?_) ?_
    · simpa using (List.mem_filter.mp hi).2
    · rw [streamOutput_filter, hbytes]
      exact padsOnlyAtEnd_encodeBytes bytes

/-- Settles O39: each encoding is longer than what it encodes. -/
theorem encodingTwiceIsNotTheInput : Obligations.EncodingTwiceIsNotTheInput := by
  intro bytes hne
  have hlonger : bytes.length < (encodeBytes bytes).length := length_lt_length_encodeBytes hne
  have hne' : encodeBytes bytes ≠ [] := List.ne_nil_of_length_pos (Nat.zero_lt_of_lt hlonger)
  have hlonger' := length_lt_length_encodeBytes hne'
  refine ⟨fun h => ?_, fun h => ?_, ?_, ?_, hlonger, hlonger'⟩
  · rw [h] at hlonger'
    omega
  · rw [h] at hlonger'
    omega
  · rw [encodeBytes_eq_base64, encodeBytes_eq_base64]
  · rw [length_encodeBytes, length_encodeBytes]

/-- Settles O40: a stalled run keeps the waiting beat, and the first edge with `out_ready` = 1 delivers it. -/
theorem stageNeverStallsByItself : Obligations.StageNeverStallsByItself := by
  refine ⟨fun s _ => inReady_of_outReady, fun s ps p hseen hvalid hstall hrst htake => ?_,
    fun bytes => ⟨length_frame bytes, length_streamOutput_frame bytes⟩⟩
  refine ⟨_, runPins_concat (runPins_of_stall hseen hvalid hstall) hrst hseen, ?_⟩
  exact (received_edgeUnder_of_take hrst htake).trans (congrArg (s.received ++ ·) (waiting_of_valid hvalid))

end Sys2Proof.Machine
end

section
/-! The family 60_exceptions.md: no fault (R130), and the refusal before the first reset edge (R138, R152). -/

namespace Sys2Proof.Machine

/-! ### Laws -/

section NoFault

variable {s : State}

/-- Past the first reset edge every clock edge completes, and stays past it (R130). -/
theorem exists_clockEdge_next (o : Option Offer) (hseen : s.resetSeen = true) :
    ∃ t, clockEdge o s = .next t ∧ t.resetSeen = true := by
  cases hrst : s.pins.rst with
  | true => exact ⟨s.resetEdge, clockEdge_of_rst hrst, resetEdge_resetSeen s⟩
  | false => exact ⟨s.dataEdge o, clockEdge_of_run hrst hseen, (dataEdge_resetSeen s o).trans hseen⟩

/-- Past the first reset edge every run completes, under any pins, and stays past it (R130). -/
theorem exists_runPins_next (ps : List Pins) (hseen : s.resetSeen = true) :
    ∃ t, runPins ps s = .next t ∧ t.resetSeen = true := by
  induction ps generalizing s with
  | nil => exact ⟨s, runPins_nil s, hseen⟩
  | cons p ps ih =>
    cases hrst : p.rst with
    | true =>
      rw [runPins_cons_of_rst hrst]
      exact ih (resetEdge_resetSeen _)
    | false =>
      rw [runPins_cons_edgeUnder hrst hseen]
      exact ih ((dataEdge_resetSeen _ _).trans hseen)

end NoFault

section ResetCycles

/-- The state after `n` reset cycles, `n` at least 1 (R150, R152). -/
def State.afterResets (n : Nat) (s : State) : State :=
  { s with
    outValidQ := false, resetSeen := true, cycle := s.cycle + n, taken := [], received := [], earlier := s.delivered }

variable (s : State)

theorem resetEdge_driven_singleton (p : Pins) : (driven [p] s).resetEdge = s.afterResets 1 := rfl

@[simp] theorem delivered_afterResets (n : Nat) : (s.afterResets n).delivered = s.delivered := List.append_nil _

/-- Only the number of the cycle tells more reset cycles from fewer. -/
theorem afterResets_afterResets (m n : Nat) : (s.afterResets m).afterResets n = s.afterResets (m + n) := by
  rw [State.afterResets, delivered_afterResets, State.afterResets, Nat.add_assoc]
  rfl

/-- Reset cycles after a reset cycle move the host's cycle on and change nothing else. -/
theorem runPins_afterResets {ps : List Pins} (hrst : ∀ p ∈ ps, p.rst = true) (n : Nat) :
    runPins ps (s.afterResets n) = .next (s.afterResets (n + ps.length)) := by
  induction ps generalizing n with
  | nil => rfl
  | cons p ps ih =>
    obtain ⟨hp, hrest⟩ := List.forall_mem_cons.mp hrst
    rw [runPins_cons_of_rst hp, resetEdge_driven_singleton, afterResets_afterResets, ih hrest, List.length_cons,
      Nat.add_assoc, Nat.add_comm 1]

/-- A run of at least one reset cycle completes from any state: the first edge resets, and the rest keep that. -/
theorem runPins_of_rst {ps : List Pins} (hne : ps ≠ []) (hrst : ∀ p ∈ ps, p.rst = true) :
    runPins ps s = .next (s.afterResets ps.length) := by
  cases ps with
  | nil => exact absurd rfl hne
  | cons p ps =>
    obtain ⟨hp, hrest⟩ := List.forall_mem_cons.mp hrst
    rw [runPins_cons_of_rst hp, resetEdge_driven_singleton, runPins_afterResets s hrest, List.length_cons,
      Nat.add_comm 1]

end ResetCycles

/-! ### The obligations -/

/-- Settles O41: an operation is one clock edge, a run keeps the reset seen edge by edge, and no
fault exists (R131). -/
theorem nothingEverFaults : Obligations.NothingEverFaults := by
  refine ⟨fun i s hseen => ?_, fun ps _ => exists_runPins_next ps, fun _ f => nomatch f⟩
  rw [exec_eq_clockEdge]
  exact exists_clockEdge_next _ hseen

/-- Settles O44: the refusal of every edge with `rst` = 0 before the first reset edge, and the run of reset cycles. -/
theorem oneResetEdgeSuffices : Obligations.OneResetEdgeSuffices := by
  refine ⟨fun s hseen hrst => ⟨step_of_powerOn hrst hseen, fun i => ?_⟩,
    fun s _ hne hrst => ⟨_, runPins_of_rst s hne hrst, rfl⟩⟩
  rw [exec_eq_clockEdge]
  exact clockEdge_of_powerOn hrst hseen

end Sys2Proof.Machine
end

section
/-! The family 70_reset_and_hazards.md: the reset edge (R150), the ports in a reset cycle (R151), and stale contents of
`out_data_q` (R156). -/

namespace Sys2Proof.Machine

/-! ### Laws -/

section ResetCycle

variable {s : State}

/-- In a reset cycle the stage is not ready (R151). -/
theorem inReady_of_rst (h : s.pins.rst = true) : s.inReady = false := by
  simp [State.inReady, h]

/-- In a reset cycle no output beat is valid (R151). -/
theorem outValid_of_rst (h : s.pins.rst = true) : s.outValid = false := by
  simp [State.outValid, h]

theorem exec_of_rst (h : s.pins.rst = true) (i : Instr) : exec i s = .next s.resetEdge := by
  rw [exec_eq_clockEdge, clockEdge_of_rst h]

end ResetCycle

section StaleData

/-- The state with other contents of `out_data_q`. -/
def State.withData (d : OutBeat) (s : State) : State := { s with outDataQ := d }

variable {s t u : State} {o : Option Offer}

/-- Contents of `out_data_q` are no beat while `out_valid_q` is 0 (R156). -/
theorem sameButStale_withData (h : s.outValidQ = false) (d : OutBeat) : SameButStale s (s.withData d) :=
  ⟨rfl, fun hvalid => absurd (h.symm.trans hvalid) Bool.false_ne_true⟩

theorem sameButStale_refl (s : State) : SameButStale s s := ⟨rfl, fun _ => rfl⟩

/-- States the same but for stale data are equal where a beat waits; elsewhere `out_data_q` is free. -/
theorem eq_or_withData_of_sameButStale (h : SameButStale s u) :
    u = s ∨ s.outValidQ = false ∧ ∃ d, u = s.withData d := by
  obtain ⟨hrest, hdata⟩ := h
  cases hvalid : s.outValidQ with
  | true => exact .inl (by rw [hrest, hdata hvalid])
  | false => exact .inr ⟨rfl, u.outDataQ, hrest⟩

/-- The beat on the input port does not depend on `out_data_q` (R112). -/
theorem offered_eq_of_sameButStale (h : SameButStale s u) : u.offered = s.offered := by
  rcases eq_or_withData_of_sameButStale h with rfl | ⟨_, d, rfl⟩ <;> rfl

/-- While nothing waits, the beats received after an edge do not depend on `out_data_q` (R114). -/
theorem nextReceived_withData (h : s.outValidQ = false) (d : OutBeat) :
    (s.withData d).nextReceived = s.nextReceived := by
  have hfire : s.fireOut = false := by simp [State.fireOut, State.outValid, h]
  have hfire' : (s.withData d).fireOut = false := hfire
  rw [nextReceived_of_no_fireOut hfire, nextReceived_of_no_fireOut hfire']
  rfl

/-- A load overwrites the stale data (R113). -/
theorem dataEdge_withData_of_loads {x : OutBeat} (hempty : s.outValidQ = false) (hload : s.loads o = some x)
    (d : OutBeat) : (s.withData d).dataEdge o = s.dataEdge o := by
  have hload' : (s.withData d).loads o = some x := hload
  rw [State.dataEdge, nextReceived_withData hempty, nextOutDataQ_of_loads hload', ← nextOutDataQ_of_loads hload]
  rfl

/-- Without a load the stale data stays in the register (R113). -/
theorem dataEdge_withData_of_no_load (hempty : s.outValidQ = false) (hload : s.loads o = none) (d : OutBeat) :
    (s.withData d).dataEdge o = (s.dataEdge o).withData d := by
  have hload' : (s.withData d).loads o = none := hload
  rw [State.dataEdge, nextReceived_withData hempty, nextOutDataQ_of_no_load hload']
  rfl

/-- A data edge from an empty register overwrites stale data or keeps it stale (R113, R156). -/
theorem sameButStale_dataEdge_withData (hempty : s.outValidQ = false) (d : OutBeat) :
    SameButStale (s.dataEdge o) ((s.withData d).dataEdge o) := by
  cases hload : s.loads o with
  | some x =>
    rw [dataEdge_withData_of_loads hempty hload]
    exact sameButStale_refl _
  | none =>
    have hempty' : (s.dataEdge o).outValidQ = false := by
      rw [dataEdge_outValidQ, nextOutValidQ_of_no_load hload, hempty, ite_self]
    rw [dataEdge_withData_of_no_load hempty hload]
    exact sameButStale_withData hempty' d

/-- A clock edge keeps states the same but for stale data (R156). -/
theorem sameButStale_clockEdge (h : SameButStale s u) (hedge : clockEdge o s = .next t) :
    ∃ v, clockEdge o u = .next v ∧ SameButStale t v := by
  rcases eq_or_withData_of_sameButStale h with rfl | ⟨hempty, d, rfl⟩
  · exact ⟨t, hedge, sameButStale_refl t⟩
  · rcases clockEdge_next hedge with ⟨hrst, rfl⟩ | ⟨hrst, hseen, rfl⟩
    · exact ⟨_, clockEdge_of_rst hrst, sameButStale_withData (resetEdge_outValidQ s) d⟩
    · exact ⟨_, clockEdge_of_run hrst hseen, sameButStale_dataEdge_withData hempty d⟩

theorem sameButStale_step (h : SameButStale s u) (hstep : step s = .next t) :
    ∃ v, step u = .next v ∧ SameButStale t v := by
  rw [step_eq_clockEdge] at hstep
  rw [step_eq_clockEdge, offered_eq_of_sameButStale h]
  exact sameButStale_clockEdge h hstep

/-- A run of one more edge, from its first edge and the rest. -/
theorem run_succ_of_step {n : Nat} (hstep : step s = .next t) : core.run (n + 1) s = core.run n t := by
  have hcore : core.step s = .next t := hstep
  simp only [Host.Core.run, hcore]

theorem sameButStale_run {n : Nat} (h : SameButStale s u) (hrun : core.run n s = .next t) :
    ∃ v, core.run n u = .next v ∧ SameButStale t v := by
  induction n generalizing s u with
  | zero =>
    obtain rfl : s = t := Host.Outcome.next.inj hrun
    exact ⟨u, rfl, h⟩
  | succ n ih =>
    obtain ⟨s', hstep, hrest⟩ := exists_step_of_run_succ hrun
    obtain ⟨u', hstep', hsame⟩ := sameButStale_step h hstep
    rw [run_succ_of_step hstep']
    exact ih hsame hrest

/-- Stale data is not on the ports (R110 to R112, R156). -/
theorem ports_eq_of_sameButStale (h : SameButStale s u) :
    u.outBeat = s.outBeat ∧ u.inReady = s.inReady ∧ u.fireIn = s.fireIn ∧ u.fireOut = s.fireOut := by
  rcases eq_or_withData_of_sameButStale h with rfl | ⟨hempty, d, rfl⟩
  · exact ⟨rfl, rfl, rfl, rfl⟩
  · have hempty' : (s.withData d).outValidQ = false := hempty
    exact ⟨(outBeat_of_empty hempty').trans (outBeat_of_empty hempty).symm, rfl, rfl, rfl⟩

end StaleData

/-! ### The obligations -/

/-- Settles O42: a step and every operation are the reset edge, in a cycle in which neither side fires. -/
theorem resetEdgeClearsOnlyValid : Obligations.ResetEdgeClearsOnlyValid := fun s hrst =>
  ⟨fireIn_of_rst hrst, fireOut_of_rst hrst, s.resetEdge, step_of_rst hrst, resetEdge_outValidQ s,
    resetEdge_outDataQ s, exec_of_rst hrst⟩

/-- Settles O46: stale data is not on the ports, and each edge of a run overwrites it or keeps it stale. -/
theorem staleDataIsNeverObserved : Obligations.StaleDataIsNeverObserved :=
  ⟨fun _ _ => ports_eq_of_sameButStale, fun _ _ _ => sameButStale_step, fun _ _ _ _ => sameButStale_run⟩

/-- Settles O43: `rst` = 1 masks both handshakes, so no beat is presented. -/
theorem noTransferWhileInReset : Obligations.NoTransferWhileInReset := fun _ hrst =>
  ⟨inReady_of_rst hrst, outValid_of_rst hrst, fireIn_of_rst hrst, fireOut_of_rst hrst,
    outBeat_eq_none_iff.mpr (outValid_of_rst hrst)⟩

end Sys2Proof.Machine
end
